-- ==== Sys2Proof/Word.lean ====
section
/-!
DEFINITION. Word: the word types of the SoftcoreCPU core (spec/00_scope.md R7).
Widths are bit-vector widths, so a value that does not fit its field cannot be written down.
-/
namespace Sys2Proof

/-- The 16-bit Word of every register, memory cell and instruction (R7 `XLEN`, `ILEN`; R51). -/
abbrev Word := BitVec 16

/-- A register index, the 3-bit fields `dest`, `src1`, `src2` (R20, R91). -/
abbrev Reg := BitVec 3

/-- The 8-bit immediate pattern of an R-class instruction (R83, R101). -/
abbrev Imm8 := BitVec 8

/-- The 11-bit absolute address field of an A-class instruction (R85, R89). -/
abbrev Addr := BitVec 11

/-- The 4-bit opcode field (R7 `OPBITS`). -/
abbrev Opcode := BitVec 4

/-- `MEM_MAX`, the largest memory in Words, 2 to the power `ABITS` (R7). -/
abbrev memMax : Nat := 2048

end Sys2Proof
end

