-- ==== Sys2Proof/Syntax.lean ====
section
/-!
DEFINITION. Syntax: the 13 mnemonics and the decoded instruction, one constructor per row of
spec/opcode_table.json (18 instruction forms and 3 illegal-encoding rows).
-/
namespace Sys2Proof

/-- The 13 mnemonics, in the order the spec lists them (spec/30_encoding.md R90). -/
inductive Mnemonic where
  | mov | cmp | add | sub | shl | ldr
  | lda | load | str | jmp | beq | bne
  | halt
  deriving DecidableEq, Repr

/-- The domain of the parameter `OPC` (R8, R90), in listing order. -/
def Mnemonic.all : List Mnemonic :=
  [.mov, .cmp, .add, .sub, .shl, .ldr, .lda, .load, .str, .jmp, .beq, .bne, .halt]

/-- The decoded instruction (R101). Fields that an instruction does not use, and reserved bits, are
not part of it. The three rows of the table that no instruction has (R104, R105, R106) are
constructors too, and keep the raw Word, because the fault they raise records it (R133). -/
inductive Instr where
  /-- `MOV dest,#imm` (R152). -/
  | movImm (d : Reg) (imm : Imm8)
  /-- `MOV dest,src1` (R153). -/
  | movReg (d s1 : Reg)
  /-- `CMP dest,#imm` (R155). -/
  | cmpImm (d : Reg) (imm : Imm8)
  /-- `CMP dest,src1` (R156). -/
  | cmpReg (d s1 : Reg)
  /-- `ADD dest,#imm` (R160). -/
  | addImm (d : Reg) (imm : Imm8)
  /-- `ADD dest,src1,src2` (R161). -/
  | addReg (d s1 s2 : Reg)
  /-- `SUB dest,#imm` (R163). -/
  | subImm (d : Reg) (imm : Imm8)
  /-- `SUB dest,src1,src2` (R164). -/
  | subReg (d s1 s2 : Reg)
  /-- `SHL dest,#imm` (R167). -/
  | shlImm (d : Reg) (imm : Imm8)
  /-- `SHL dest,src1,src2` (R168). -/
  | shlReg (d s1 s2 : Reg)
  /-- `LDR dest,src1` (R171). -/
  | ldr (d s1 : Reg)
  /-- The `LDR` opcode with `mode = 0`, an illegal Word (R106, R172). -/
  | ldrNoImm (raw : Word)
  /-- `LDA addr` (R192). -/
  | lda (addr : Addr)
  /-- `LOAD addr` (R195). -/
  | load (addr : Addr)
  /-- `STR addr` (R198). -/
  | str (addr : Addr)
  /-- `JMP addr` (R202). -/
  | jmp (addr : Addr)
  /-- `BEQ addr` (R205). -/
  | beq (addr : Addr)
  /-- `BNE addr` (R208). -/
  | bne (addr : Addr)
  /-- `HALT` (R221). -/
  | halt
  /-- A Word with the opcode value of `0..13` that no mnemonic has, illegal (R105). -/
  | opcodeUnnamed (raw : Word)
  /-- A Word with opcode value 14 or 15, illegal (R104). -/
  | opcodeReserved (raw : Word)
  deriving DecidableEq, Repr

/-- The mnemonic whose opcode value the instruction's Word carries. The illegal `LDR` Word carries
that of `LDR`. The unnamed and the reserved opcode values belong to no mnemonic. -/
def Instr.mnemonic : Instr → Option Mnemonic
  | .movImm _ _ => some .mov
  | .movReg _ _ => some .mov
  | .cmpImm _ _ => some .cmp
  | .cmpReg _ _ => some .cmp
  | .addImm _ _ => some .add
  | .addReg _ _ _ => some .add
  | .subImm _ _ => some .sub
  | .subReg _ _ _ => some .sub
  | .shlImm _ _ => some .shl
  | .shlReg _ _ _ => some .shl
  | .ldr _ _ => some .ldr
  | .ldrNoImm _ => some .ldr
  | .lda _ => some .lda
  | .load _ => some .load
  | .str _ => some .str
  | .jmp _ => some .jmp
  | .beq _ => some .beq
  | .bne _ => some .bne
  | .halt => some .halt
  | .opcodeUnnamed _ => none
  | .opcodeReserved _ => none

/-- The raw Word of an illegal encoding, `none` for an instruction: the `Illegal` of R100. -/
def Instr.illegalWord : Instr → Option Word
  | .movImm _ _ => none
  | .movReg _ _ => none
  | .cmpImm _ _ => none
  | .cmpReg _ _ => none
  | .addImm _ _ => none
  | .addReg _ _ _ => none
  | .subImm _ _ => none
  | .subReg _ _ _ => none
  | .shlImm _ _ => none
  | .shlReg _ _ _ => none
  | .ldr _ _ => none
  | .ldrNoImm w => some w
  | .lda _ => none
  | .load _ => none
  | .str _ => none
  | .jmp _ => none
  | .beq _ => none
  | .bne _ => none
  | .halt => none
  | .opcodeUnnamed w => some w
  | .opcodeReserved w => some w

end Sys2Proof
end

