-- ==== Sys2Proof/Config.lean ====
section
/-!
DEFINITION. Config: the parameters that spec/00_scope.md R8 leaves to the platform, as plain data, and
the free values of the core. The parameters' default values stand in Machine/Platform.lean.
-/
namespace Sys2Proof

/-- The parameter `OPC`: an opcode value for each mnemonic (R8, R90). -/
structure OpcodeMap where
  mov : Opcode
  cmp : Opcode
  add : Opcode
  sub : Opcode
  shl : Opcode
  ldr : Opcode
  lda : Opcode
  load : Opcode
  str : Opcode
  jmp : Opcode
  beq : Opcode
  bne : Opcode
  halt : Opcode
  deriving DecidableEq, Repr

/-- `OPC(m)`. -/
def OpcodeMap.code (o : OpcodeMap) : Mnemonic → Opcode
  | .mov => o.mov
  | .cmp => o.cmp
  | .add => o.add
  | .sub => o.sub
  | .shl => o.shl
  | .ldr => o.ldr
  | .lda => o.lda
  | .load => o.load
  | .str => o.str
  | .jmp => o.jmp
  | .beq => o.beq
  | .bne => o.bne
  | .halt => o.halt

/-- `OPC` is an injective map to `0..13` (R8). -/
def OpcodeMap.wf (o : OpcodeMap) : Bool :=
  decide (Mnemonic.all.map o.code).Nodup && Mnemonic.all.all fun m => decide (o.code m ≤ 13#4)

/-- The parameters of a core that are plain data (R8). They are fixed when the core starts, and no
instruction changes them. `IMAGE` is an input of reset (`State.resetTo`), `SHL_OVER` is
`Config.shlOver`, and `IMAGE_BYTE_ORDER` belongs to the loader (Machine/Image.lean). -/
structure Config where
  /-- `MEM_SIZE`, the number of Words of memory. -/
  memSize : Nat
  /-- `CODE_BASE`, the reset value of the PC. -/
  codeBase : Nat
  /-- `HALT_ADVANCES_PC`, whether `HALT` increments the PC. -/
  haltAdvancesPc : Bool
  /-- `OPC`, the opcode numbering. -/
  opc : OpcodeMap
  deriving DecidableEq, Repr

/-- The constraints of R8: `1 <= MEM_SIZE <= 2048`, `CODE_BASE < MEM_SIZE`, `OPC` injective to `0..13`. -/
def Config.wf (c : Config) : Bool :=
  decide (1 ≤ c.memSize) && decide (c.memSize ≤ memMax) && decide (c.codeBase < c.memSize) && c.opc.wf

/-- `SHL_OVER`: the result of `SHL` when the amount, read unsigned, is 16 or more (R166, R8). A free value:
"a model assumes nothing except that it is a function of `v` and `a`". -/
opaque Config.shlOver : Word → Word → Word

end Sys2Proof
end

