-- ==== Sys2Proof/Machine/Fields.lean ====
section
/-!
DEFINITION. Fields: where the fields of an instruction stand in its Word (spec/30_encoding.md R81 to R86, R91).
-/
namespace Sys2Proof

/-- `w[15:12]` (R81). -/
def opcodeField (w : Word) : Opcode := w.extractLsb' 12 4

/-- `w[11:9]` (R82, R91). -/
def destField (w : Word) : Reg := w.extractLsb' 9 3

/-- `w[8]`: false selects the immediate form, true the register form (R82). -/
def modeBit (w : Word) : Bool := w.getLsbD 8

/-- `w[7:0]` (R83). -/
def imm8Field (w : Word) : Imm8 := w.extractLsb' 0 8

/-- `w[7:5]` (R84, R91). -/
def src1Field (w : Word) : Reg := w.extractLsb' 5 3

/-- `w[4:2]` (R84, R91). -/
def src2Field (w : Word) : Reg := w.extractLsb' 2 3

/-- `w[10:0]` (R85, R89). -/
def addressField (w : Word) : Addr := w.extractLsb' 0 11

end Sys2Proof
end

