-- ==== Sys2Proof/WellFormed.lean ====
section
/-!
DEFINITION. WellFormed: which terms of `Instr` are readings of a Word. The operand ranges of
spec/30_encoding.md R102 hold by the operands' types; what is left to check is that the raw Word of an
illegal row is a Word of that row.
-/
namespace Sys2Proof

/-- Some mnemonic has the opcode value `v` under `o`. -/
def OpcodeMap.names (o : OpcodeMap) (v : Opcode) : Bool :=
  Mnemonic.all.any fun m => o.code m == v

/-- The term is the reading of some Word under the numbering `o`. The raw Word of `ldrNoImm` has the `LDR` opcode
and `mode = 0` (R106), that of `opcodeUnnamed` an opcode value of `0..13` that no mnemonic has (R105), and that of
`opcodeReserved` opcode value 14 or 15 (R104). -/
def Instr.wf (o : OpcodeMap) : Instr → Bool
  | .movImm _ _ => true
  | .movReg _ _ => true
  | .cmpImm _ _ => true
  | .cmpReg _ _ => true
  | .addImm _ _ => true
  | .addReg _ _ _ => true
  | .subImm _ _ => true
  | .subReg _ _ _ => true
  | .shlImm _ _ => true
  | .shlReg _ _ _ => true
  | .ldr _ _ => true
  | .ldrNoImm w => opcodeField w == o.ldr && !modeBit w
  | .lda _ => true
  | .load _ => true
  | .str _ => true
  | .jmp _ => true
  | .beq _ => true
  | .bne _ => true
  | .halt => true
  | .opcodeUnnamed w => decide (opcodeField w ≤ 13#4) && !o.names (opcodeField w)
  | .opcodeReserved w => decide (14#4 ≤ opcodeField w)

end Sys2Proof
end

