-- ==== Sys2Proof/Decode.lean ====
section
/-!
DEFINITION. Decode: the decoder (spec/30_encoding.md R100), the encoder (R102), the default opcode
numbering (R90), and the ignored bits of a Word (R107 to R109).
-/
namespace Sys2Proof

/-- The default value of `OPC`, the spec's listing order (R90).
DESIGN CHOICE of the spec (D1), unsafe for binaries of the original hardware: notes/assumptions/1.md. -/
def OpcodeMap.listing : OpcodeMap where
  mov := 0
  cmp := 1
  add := 2
  sub := 3
  shl := 4
  ldr := 5
  lda := 6
  load := 7
  str := 8
  jmp := 9
  beq := 10
  bne := 11
  halt := 12

/-- `mn(v)` of R100: the mnemonic with opcode value `v`, if there is one. -/
def OpcodeMap.mnemonicOf (o : OpcodeMap) (v : Opcode) : Option Mnemonic :=
  Mnemonic.all.find? fun m => o.code m == v

/-- An R-class Word: `mode` selects the register form or the immediate form (R87). -/
def decodeR (w : Word) (immediate : Reg → Imm8 → Instr) (register : Reg → Reg → Reg → Instr) : Instr :=
  if modeBit w then register (destField w) (src1Field w) (src2Field w)
  else immediate (destField w) (imm8Field w)

/-- The decoder of R100, total on all Words and independent of the state (R133). Ignored bits are those of R107, R108
and R109. An illegal Word decodes to one of the three constructors that name why it is illegal (R231). -/
def decode (o : OpcodeMap) (w : Word) : Instr :=
  match o.mnemonicOf (opcodeField w) with
  | some .mov => decodeR w .movImm fun d a _ => .movReg d a
  | some .cmp => decodeR w .cmpImm fun d a _ => .cmpReg d a
  | some .add => decodeR w .addImm .addReg
  | some .sub => decodeR w .subImm .subReg
  | some .shl => decodeR w .shlImm .shlReg
  | some .ldr => decodeR w (fun _ _ => .ldrNoImm w) fun d a _ => .ldr d a
  | some .lda => .lda (addressField w)
  | some .load => .load (addressField w)
  | some .str => .str (addressField w)
  | some .jmp => .jmp (addressField w)
  | some .beq => .beq (addressField w)
  | some .bne => .bne (addressField w)
  | some .halt => .halt
  | none => if opcodeField w ≤ 13#4 then .opcodeUnnamed w else .opcodeReserved w

/-- `OPC(m) ++ d ++ 0b0 ++ i` (R102). -/
def encodeRImm (op : Opcode) (d : Reg) (imm : Imm8) : Word := op ++ d ++ 0#1 ++ imm

/-- `OPC(m) ++ d ++ 0b1 ++ a ++ b ++ 0b00` (R102). -/
def encodeRReg (op : Opcode) (d s1 s2 : Reg) : Word := op ++ d ++ 1#1 ++ s1 ++ s2 ++ 0#2

/-- `OPC(m) ++ 0b0 ++ addr` (R102). -/
def encodeA (op : Opcode) (addr : Addr) : Word := op ++ 0#1 ++ addr

/-- `OPC(HALT) ++ 0b000000000000` (R102). -/
def encodeZ (op : Opcode) : Word := op ++ 0#12

/-- The encoder of R102: every ignored or reserved bit is 0. An illegal row's raw Word stands for itself. -/
def encode (o : OpcodeMap) : Instr → Word
  | .movImm d imm => encodeRImm o.mov d imm
  | .movReg d s1 => encodeRReg o.mov d s1 0
  | .cmpImm d imm => encodeRImm o.cmp d imm
  | .cmpReg d s1 => encodeRReg o.cmp d s1 0
  | .addImm d imm => encodeRImm o.add d imm
  | .addReg d s1 s2 => encodeRReg o.add d s1 s2
  | .subImm d imm => encodeRImm o.sub d imm
  | .subReg d s1 s2 => encodeRReg o.sub d s1 s2
  | .shlImm d imm => encodeRImm o.shl d imm
  | .shlReg d s1 s2 => encodeRReg o.shl d s1 s2
  | .ldr d s1 => encodeRReg o.ldr d s1 0
  | .ldrNoImm w => w
  | .lda addr => encodeA o.lda addr
  | .load addr => encodeA o.load addr
  | .str addr => encodeA o.str addr
  | .jmp addr => encodeA o.jmp addr
  | .beq addr => encodeA o.beq addr
  | .bne addr => encodeA o.bne addr
  | .halt => encodeZ o.halt
  | .opcodeUnnamed w => w
  | .opcodeReserved w => w

/-- The bits of `w` that its decoding ignores: `w[4:0]` of register-form `MOV`, `CMP`, `LDR` (R107, R108), `w[1:0]` of
register-form `ADD`, `SUB`, `SHL` (R107), `w[11]` of the A-class and `w[11:0]` of `HALT` (R109). An illegal Word is recorded
whole by its fault, so none of its bits is ignored. -/
def ignoredBits (o : OpcodeMap) (w : Word) : Word :=
  match o.mnemonicOf (opcodeField w) with
  | some .mov => if modeBit w then 0x001F else 0
  | some .cmp => if modeBit w then 0x001F else 0
  | some .add => if modeBit w then 0x0003 else 0
  | some .sub => if modeBit w then 0x0003 else 0
  | some .shl => if modeBit w then 0x0003 else 0
  | some .ldr => if modeBit w then 0x001F else 0
  | some .lda => 0x0800
  | some .load => 0x0800
  | some .str => 0x0800
  | some .jmp => 0x0800
  | some .beq => 0x0800
  | some .bne => 0x0800
  | some .halt => 0x0FFF
  | none => 0

/-- The decoder on an instruction given as the opcode table numbers its bits, under the default numbering. An
instruction is one Word (R80), so more than 16 bits are refused. -/
def decodeTableWord (nbits w : Nat) : Option Instr :=
  if nbits ≤ 16 then some (decode OpcodeMap.listing (BitVec.ofNat 16 (w % 2 ^ nbits))) else none

end Sys2Proof
end

