-- ==== Sys2Proof/Machine/Platform.lean ====
section
/-!
DEFINITION. Platform: the default values of the parameters (spec/00_scope.md R8), and the layout that supplies
`MEM_SIZE` and `CODE_BASE` (spec/20_memory.md R58, R59).
-/
namespace Sys2Proof

/-- The defaults of R8, which the core of `State.reset` has.
DESIGN CHOICE of the spec (D1, D12, D15), unsafe where a claim rests on one value: notes/assumptions/2.md. -/
def Config.default : Config where
  memSize := 2048
  codeBase := 0
  haltAdvancesPc := true
  opc := OpcodeMap.listing

/-- A section's name: "named sections (`code`, `data`, `stack`, …)" (R58); `other` stands for any further name. -/
inductive SectionName where
  | code
  | data
  | stack
  | other (n : Nat)
  deriving DecidableEq, Repr

/-- A named section with a base address and a length in Words (R58). -/
structure LayoutSection where
  name : SectionName
  base : Nat
  length : Nat
  deriving DecidableEq, Repr

/-- SCPU's `MemoryMap` (R58): a total size in Words and named sections. -/
structure Layout where
  totalSize : Nat
  sections : List LayoutSection
  deriving DecidableEq, Repr

/-- `LayoutError`, "naming the offending section" (R58). -/
structure LayoutError where
  offending : SectionName
  deriving DecidableEq, Repr

/-- Two sections share an address (R58). A section of length 0 shares none. -/
def LayoutSection.overlaps (a b : LayoutSection) : Bool :=
  decide (max a.base b.base < min (a.base + a.length) (b.base + b.length))

/-- The section that makes a list of sections invalid in `[0, totalSize)`, if there is one (R58). Three points are open there and
are the model's choice (DESIGN CHOICE, safe for the core: notes/assumptions/17.md): where several sections offend, the first
found in the list is named, a section being tested against the bound before it is tested against the later ones; of two that
overlap, the later is named; and an empty section whose base is above `totalSize` offends. -/
def offendingSection (totalSize : Nat) : List LayoutSection → Option SectionName
  | [] => none
  | x :: rest =>
    if totalSize < x.base + x.length then some x.name
    else match rest.find? x.overlaps with
      | some y => some y.name
      | none => offendingSection totalSize rest

/-- The validity check of R58. -/
def Layout.check (l : Layout) : Except LayoutError Unit :=
  match offendingSection l.totalSize l.sections with
  | some n => .error ⟨n⟩
  | none => .ok ()

/-- `resolve(section_name) -> (base, length)` (R58). -/
def Layout.resolve (l : Layout) (n : SectionName) : Option (Nat × Nat) :=
  (l.sections.find? fun x => x.name == n).map fun x => (x.base, x.length)

/-- `contains(addr)`, read as the bound `[0, total_size)` (R62). -/
def Layout.contains (l : Layout) (a : Nat) : Bool := decide (a < l.totalSize)

/-- The two numbers that the core takes from a layout (R59), with the two other parameters given beside it. A layout
gives a core if it is valid, has a `code` section, and the numbers meet the constraints of R8 (R286). The length of the `code`
section is not a third number: an empty one, of which the spec does not speak, gives a core if its base is below `MEM_SIZE`
(DESIGN CHOICE: notes/assumptions/17.md). -/
def Layout.toConfig (l : Layout) (opc : OpcodeMap) (haltAdvancesPc : Bool) : Option Config :=
  match l.check, l.resolve .code with
  | .ok _, some (base, _) =>
    let c : Config := { memSize := l.totalSize, codeBase := base, haltAdvancesPc, opc }
    if c.wf then some c else none
  | _, _ => none

end Sys2Proof
end

