-- ==== Sys2Proof/Machine/State.lean ====
section
/-!
DEFINITION. State: everything the spec gives the core (spec/10_state.md R20 to R36), as plain data, and its
value after reset (R45).
-/
namespace Sys2Proof.Machine

/-- The one memory (R33, R50): a Word for each address, kept as the list of the addresses, strictly rising, whose Word differs
from `Memory.unlisted`. The addressable unit is the Word, and the core has no bytes (R51, R63): notes/assumptions/4.md. -/
abbrev Memory := List (Nat × Word)

/-- What an unlisted address reads as: "unused locations zero-filled" (R66, R15). -/
abbrev Memory.unlisted : Word := 0

/-- The fault descriptor of R30. -/
inductive FaultRecord where
  /-- The Word fetched at `pc` is illegal (R231). -/
  | illegalInstruction (pc : Nat) (word : Word)
  /-- At `pc`, an address not below `MEM_SIZE` was about to index memory (R232). -/
  | memoryFault (pc addr : Nat)
  deriving DecidableEq, Repr

/-- The architectural state (R20 to R34) and the parameters the core was started with. -/
structure State where
  /-- The general registers `x[0] .. x[7]` (R20); `x[7]` is the MBR (R22). -/
  regs : Vector Word 8
  /-- The program counter, an integer that counts Words and does not wrap (R25, R26). -/
  pc : Nat
  /-- The EQUAL flag (R28). -/
  flag : Bool
  /-- `halted` (R29). -/
  halted : Bool
  /-- `fault` (R30). -/
  fault : Option FaultRecord
  /-- `mem` (R33). -/
  mem : Memory
  /-- The model's own field: the parameters of R8, which nothing changes after the start. -/
  cfg : Config
  deriving DecidableEq, Repr

/-- Why a step ends without a next state. The spec's own two faults are no constructors of this type: they are taken
inside the machine, as R236 says (`State.raise`). -/
inductive Fault where
  /-- Raised by `step` alone, on a state with `halted = true`: "it has no successor" (R138). Safe: the model
  takes no step where the spec has none. -/
  | halted
  deriving DecidableEq, Repr

/-- Why an instruction has no meaning. -/
inductive Refusal where
  /-- Raised by no arm: every row of the opcode table has its meaning. Safe. -/
  | notModelled (mnemonic : String)
  deriving DecidableEq, Repr

/-- The machine right after reset, with the parameters at their defaults and the image of zeros (R45, R281). Reset with
any parameters and image is `State.resetTo`. -/
def State.reset : State where
  regs := Vector.replicate 8 0
  pc := Config.default.codeBase
  flag := false
  halted := false
  fault := none
  mem := []
  cfg := Config.default

end Sys2Proof.Machine
end

