-- ==== Sys2Proof/Machine/Flags.lean ====
section
/-!
DEFINITION. Flags: the one flag's computation (spec/10_state.md R28; spec/41_r_class.md R155, R156).
-/
namespace Sys2Proof.Machine

/-- What `CMP` writes to the EQUAL flag: equality of the 16-bit patterns (R155, R156). -/
def equalFlag (a b : Word) : Bool := a == b

end Sys2Proof.Machine
end

