-- ==== Sys2Proof/Machine/Operands.lean ====
section
/-!
DEFINITION. Operands: the operand forms (spec/30_encoding.md R88, R89; spec/42_a_class.md R199) and the arithmetic
unit (spec/41_r_class.md R151, R166).
-/
namespace Sys2Proof.Machine

/-- `sext_16(imm8)` (R10, R88). -/
def sext16 (imm : Imm8) : Word := imm.signExtend 16

/-- `zext_16(addr)` (R10, R89). -/
def zext16 (addr : Addr) : Word := addr.setWidth 16

/-- `u(w)`, the unsigned reading, as an address (R10, R53). -/
def wordAddress (w : Word) : Nat := w.toNat

/-- An A-class address as an index of memory or a value of the PC (R89). -/
def fieldAddress (addr : Addr) : Nat := addr.toNat

/-- `(u(a) + u(b)) mod 65536` (R151, R160). -/
def addWord (a b : Word) : Word := BitVec.ofNat 16 (a.toNat + b.toNat)

/-- `(u(a) - u(b)) mod 65536` (R151, R163). -/
def subWord (a b : Word) : Word := BitVec.ofInt 16 ((a.toNat : Int) - (b.toNat : Int))

/-- `shl(v, a)` (R166): the exact shift narrowed to 16 bits for an amount of `0..15`, and the free value `SHL_OVER(v, a)`
for one of 16 or more (notes/assumptions/5.md). -/
def shlWord (v a : Word) : Word :=
  if a.toNat ≤ 15 then BitVec.ofNat 16 (v.toNat * 2 ^ a.toNat) else Config.shlOver v a

/-- Register index 7, the implicit operand of `LDA`, `LOAD` and `STR` (R7 `MBR`, R22). -/
def mbr : Reg := 7

end Sys2Proof.Machine
end

