-- ==== Sys2Proof/Machine/Ops.lean ====
section
/-!
DEFINITION. Ops: the named operations over memory, registers, PC and flag, and taking a fault. There is no return from
a fault (spec/60_exceptions.md R238), so no operation stands for one.
-/
namespace Sys2Proof.Machine

/-- The Word at address `a` (R33). -/
def Memory.read : Memory → Nat → Word
  | [], _ => Memory.unlisted
  | (b, x) :: rest, a => if a = b then x else Memory.read rest a

/-- Puts the Word `v` at an address below every listed one, keeping the canonical form. -/
def Memory.cons (a : Nat) (v : Word) (rest : Memory) : Memory :=
  if v = Memory.unlisted then rest else (a, v) :: rest

/-- `mem[a] <- v`: the whole Word is replaced, and every other Word is unchanged (R55). -/
def Memory.write : Memory → Nat → Word → Memory
  | [], a, v => Memory.cons a v []
  | (b, x) :: rest, a, v =>
    if a < b then Memory.cons a v ((b, x) :: rest)
    else if a = b then Memory.cons a v rest
    else (b, x) :: Memory.write rest a v

/-- The canonical form: addresses strictly rising, and no entry equal to what an unlisted address reads as. -/
def Memory.wf : Memory → Bool
  | [] => true
  | (a, x) :: rest =>
    decide (x ≠ Memory.unlisted) && (rest.all fun e => decide (a < e.1)) && Memory.wf rest

/-- Every listed address is below `n`. -/
def Memory.below (n : Nat) (m : Memory) : Bool := m.all fun e => decide (e.1 < n)

/-- `x[i]` (R11, R20). -/
def State.reg (s : State) (r : Reg) : Word := s.regs[r.toNat]'r.isLt

/-- `x[i] <- v`. No register is hard-wired (R23). -/
def State.setReg (s : State) (r : Reg) (v : Word) : State :=
  { s with regs := s.regs.set r.toNat v r.isLt }

/-- `flag <- b` (R28). -/
def State.setFlag (s : State) (b : Bool) : State := { s with flag := b }

/-- `pc <- pc + 1`, with no wrap (R26, R135). -/
def State.advance (s : State) : State := { s with pc := s.pc + 1 }

/-- `pc <- addr` (R201). -/
def State.jump (s : State) (addr : Addr) : State := { s with pc := fieldAddress addr }

/-- The conditional transfer of `BEQ` and `BNE` (R205, R208). -/
def State.branch (s : State) (taken : Bool) (addr : Addr) : State :=
  { s with pc := if taken then fieldAddress addr else s.pc + 1 }

/-- `halted <- true`, and the PC advances if `HALT_ADVANCES_PC` (R29, R221). -/
def State.halt (s : State) : State :=
  { s with halted := true, pc := if s.cfg.haltAdvancesPc then s.pc + 1 else s.pc }

/-- Fault entry, `raise F` (R236): it writes `fault` and `halted`, and nothing else. -/
def State.raise (s : State) (f : FaultRecord) : State := { s with fault := some f, halted := true }

/-- `MemRead(a)` (R54). -/
def State.memRead (s : State) (a : Nat) : Except FaultRecord Word :=
  if a < s.cfg.memSize then .ok (s.mem.read a) else .error (.memoryFault s.pc a)

/-- `MemWrite(a, v)` (R55). -/
def State.memWrite (s : State) (a : Nat) (v : Word) : Except FaultRecord State :=
  if a < s.cfg.memSize then .ok { s with mem := s.mem.write a v } else .error (.memoryFault s.pc a)

/-- Instruction fetch, `MemRead(pc)` (R56, R132). -/
def State.fetch (s : State) : Except FaultRecord Word := s.memRead s.pc

/-- The end of an instruction begun in `s`: the state it reached, or the fault it raised, taken in `s`, so that a faulting
instruction has no other effect (R236). -/
def State.complete (s : State) : Except FaultRecord State → Host.Outcome State Fault Refusal
  | .ok t => .next t
  | .error f => .next (s.raise f)

end Sys2Proof.Machine
end

