-- ==== Sys2Proof/Machine/AClass.lean ====
section
/-!
DEFINITION. AClass: the A-class instructions (spec/42_a_class.md). `LDA`, `LOAD` and `STR` use register 7 implicitly (R190).
-/
namespace Sys2Proof.Machine

/-- `LDA addr`: the address itself, not compared with `MEM_SIZE` (R192). -/
def execLda (addr : Addr) (s : State) : Host.Outcome State Fault Refusal :=
  .next (s.setReg mbr (zext16 addr)).advance

/-- `LOAD addr` (R195). -/
def execLoad (addr : Addr) (s : State) : Host.Outcome State Fault Refusal :=
  s.complete ((s.memRead (fieldAddress addr)).map fun v => (s.setReg mbr v).advance)

/-- `STR addr` (R198). -/
def execStr (addr : Addr) (s : State) : Host.Outcome State Fault Refusal :=
  s.complete ((s.memWrite (fieldAddress addr) (s.reg mbr)).map fun t => t.advance)

/-- `JMP addr`: the target is not checked (R201, R202). -/
def execJmp (addr : Addr) (s : State) : Host.Outcome State Fault Refusal :=
  .next (s.jump addr)

/-- `BEQ addr` (R205). -/
def execBeq (addr : Addr) (s : State) : Host.Outcome State Fault Refusal :=
  .next (s.branch s.flag addr)

/-- `BNE addr` (R208). -/
def execBne (addr : Addr) (s : State) : Host.Outcome State Fault Refusal :=
  .next (s.branch (!s.flag) addr)

end Sys2Proof.Machine
end

