-- ==== Sys2Proof/Machine/Illegal.lean ====
section
/-!
DEFINITION. Illegal: the illegal encodings (spec/30_encoding.md R104 to R106). Each takes the fault
`IllegalInstruction(pc, word)`, a next state as spec/40_cycle.md R133 says.
-/
namespace Sys2Proof.Machine

/-- `raise IllegalInstruction(pc, word)` (R133, R231). -/
def raiseIllegal (raw : Word) (s : State) : Host.Outcome State Fault Refusal :=
  .next (s.raise (.illegalInstruction s.pc raw))

/-- The `LDR` opcode with `mode = 0` (R106). -/
def execLdrNoImm (raw : Word) (s : State) : Host.Outcome State Fault Refusal :=
  raiseIllegal raw s

/-- The opcode value of `0..13` that no mnemonic has (R105). -/
def execOpcodeUnnamed (raw : Word) (s : State) : Host.Outcome State Fault Refusal :=
  raiseIllegal raw s

/-- Opcode values 14 and 15 (R104). -/
def execOpcodeReserved (raw : Word) (s : State) : Host.Outcome State Fault Refusal :=
  raiseIllegal raw s

end Sys2Proof.Machine
end

