-- ==== Sys2Proof/Machine/RClass.lean ====
section
/-!
DEFINITION. RClass: the R-class instructions (spec/41_r_class.md). Sources are read in the state before the instruction, so
a destination that is also a source is read with its old value (R136).
-/
namespace Sys2Proof.Machine

/-- What the register-writing R-class instructions share: `x[d] <- v; pc <- pc + 1` (R150). -/
def writeAndAdvance (d : Reg) (v : Word) (s : State) : Host.Outcome State Fault Refusal :=
  .next (s.setReg d v).advance

/-- What `CMP` does in either form: the flag is written, always, and no register (R155, R156). -/
def compareAndAdvance (a b : Word) (s : State) : Host.Outcome State Fault Refusal :=
  .next (s.setFlag (equalFlag a b)).advance

/-- `MOV dest,#imm` (R152). -/
def execMovImm (d : Reg) (imm : Imm8) (s : State) : Host.Outcome State Fault Refusal :=
  writeAndAdvance d (sext16 imm) s

/-- `MOV dest,src1` (R153). -/
def execMovReg (d s1 : Reg) (s : State) : Host.Outcome State Fault Refusal :=
  writeAndAdvance d (s.reg s1) s

/-- `CMP dest,#imm` (R155). -/
def execCmpImm (d : Reg) (imm : Imm8) (s : State) : Host.Outcome State Fault Refusal :=
  compareAndAdvance (s.reg d) (sext16 imm) s

/-- `CMP dest,src1` (R156). -/
def execCmpReg (d s1 : Reg) (s : State) : Host.Outcome State Fault Refusal :=
  compareAndAdvance (s.reg d) (s.reg s1) s

/-- `ADD dest,#imm`: `dest` is the first source too (R160). -/
def execAddImm (d : Reg) (imm : Imm8) (s : State) : Host.Outcome State Fault Refusal :=
  writeAndAdvance d (addWord (s.reg d) (sext16 imm)) s

/-- `ADD dest,src1,src2` (R161). -/
def execAddReg (d s1 s2 : Reg) (s : State) : Host.Outcome State Fault Refusal :=
  writeAndAdvance d (addWord (s.reg s1) (s.reg s2)) s

/-- `SUB dest,#imm` (R163). -/
def execSubImm (d : Reg) (imm : Imm8) (s : State) : Host.Outcome State Fault Refusal :=
  writeAndAdvance d (subWord (s.reg d) (sext16 imm)) s

/-- `SUB dest,src1,src2`: `src1` minus `src2` (R164). -/
def execSubReg (d s1 s2 : Reg) (s : State) : Host.Outcome State Fault Refusal :=
  writeAndAdvance d (subWord (s.reg s1) (s.reg s2)) s

/-- `SHL dest,#imm`: the amount is the sign-extended immediate (R167). -/
def execShlImm (d : Reg) (imm : Imm8) (s : State) : Host.Outcome State Fault Refusal :=
  writeAndAdvance d (shlWord (s.reg d) (sext16 imm)) s

/-- `SHL dest,src1,src2`: the amount is the whole of `x[s2]` (R168). -/
def execShlReg (d s1 s2 : Reg) (s : State) : Host.Outcome State Fault Refusal :=
  writeAndAdvance d (shlWord (s.reg s1) (s.reg s2)) s

/-- `LDR dest,src1`: all 16 bits of `x[s1]` are the address (R171). -/
def execLdr (d s1 : Reg) (s : State) : Host.Outcome State Fault Refusal :=
  s.complete ((s.memRead (wordAddress (s.reg s1))).map fun v => (s.setReg d v).advance)

end Sys2Proof.Machine
end

