-- ==== Sys2Proof/Machine/ZClass.lean ====
section
/-!
DEFINITION. ZClass: `HALT` (spec/43_z_class.md).
-/
namespace Sys2Proof.Machine

/-- `HALT`: `halted <- true`, and the PC advances if `HALT_ADVANCES_PC`; `fault` keeps its value (R221). -/
def execHalt (s : State) : Host.Outcome State Fault Refusal :=
  .next s.halt

end Sys2Proof.Machine
end

