-- ==== Sys2Proof/Machine/Dispatch.lean ====
section
/-! DEFINITION. Dispatch: the decoded instruction selects one rule (spec/40_cycle.md R134). -/
namespace Sys2Proof.Machine

def exec (i : Instr) (s : State) : Host.Outcome State Fault Refusal :=
  match i with
  | .movImm d imm => Sys2Proof.Machine.execMovImm d imm s
  | .movReg d s1 => Sys2Proof.Machine.execMovReg d s1 s
  | .cmpImm d imm => Sys2Proof.Machine.execCmpImm d imm s
  | .cmpReg d s1 => Sys2Proof.Machine.execCmpReg d s1 s
  | .addImm d imm => Sys2Proof.Machine.execAddImm d imm s
  | .addReg d s1 s2 => Sys2Proof.Machine.execAddReg d s1 s2 s
  | .subImm d imm => Sys2Proof.Machine.execSubImm d imm s
  | .subReg d s1 s2 => Sys2Proof.Machine.execSubReg d s1 s2 s
  | .shlImm d imm => Sys2Proof.Machine.execShlImm d imm s
  | .shlReg d s1 s2 => Sys2Proof.Machine.execShlReg d s1 s2 s
  | .ldr d s1 => Sys2Proof.Machine.execLdr d s1 s
  | .ldrNoImm raw => Sys2Proof.Machine.execLdrNoImm raw s
  | .lda addr => Sys2Proof.Machine.execLda addr s
  | .load addr => Sys2Proof.Machine.execLoad addr s
  | .str addr => Sys2Proof.Machine.execStr addr s
  | .jmp addr => Sys2Proof.Machine.execJmp addr s
  | .beq addr => Sys2Proof.Machine.execBeq addr s
  | .bne addr => Sys2Proof.Machine.execBne addr s
  | .halt => Sys2Proof.Machine.execHalt s
  | .opcodeUnnamed raw => Sys2Proof.Machine.execOpcodeUnnamed raw s
  | .opcodeReserved raw => Sys2Proof.Machine.execOpcodeReserved raw s

end Sys2Proof.Machine
end

