-- ==== Sys2Proof/Machine/Step.lean ====
section
/-!
DEFINITION. Step: one pass of the fetch-decode-execute loop (spec/40_cycle.md R131).
-/
namespace Sys2Proof.Machine

/-- `step` (R131): fetch, decode, execute. A halted core takes no step (R138). -/
def step (s : State) : Host.Outcome State Fault Refusal :=
  if s.halted then .fault .halted
  else match s.fetch with
    | .error f => .next (s.raise f)
    | .ok w => exec (decode s.cfg.opc w) s

/-- `s` with the instruction whose bits are `w` in the Word that the next step fetches, the Word at the PC. -/
def State.withFetchWord (s : State) (nbits w : Nat) : State :=
  { s with mem := s.mem.write s.pc (BitVec.ofNat 16 (w % 2 ^ nbits)) }

end Sys2Proof.Machine
end

