-- ==== Sys2Proof/Machine/Assembler.lean ====
section
/-!
DEFINITION. Assembler: the toolchain's two passes on programs given as statements (spec/30_encoding.md R114 to R125). It is
software outside the core; it says which images a program text stands for. The text's lexing and grammar are out of
scope (spec/00_scope.md R5, R14): a label is a value of any type `α`, and a literal is its number.
-/
namespace Sys2Proof.Machine

/-- An operand as written (R113, R116, R117). The prefix `&` changes no encoding. -/
inductive Operand (α : Type) where
  /-- `rN`. -/
  | reg (n : Nat)
  /-- `&rN`, a register used as an address. -/
  | regAddress (n : Nat)
  /-- `#v`, or an address written as a number. -/
  | literal (v : Int)
  /-- A label, bare or as `&identifier`. -/
  | label (l : α)
  deriving DecidableEq, Repr

/-- A statement of a program (R114 to R118). -/
inductive Statement (α : Type) where
  /-- `.section[name]` or `.section(name)`. -/
  | directive (n : SectionName)
  /-- `name:`. -/
  | declare (l : α)
  | instr (m : Mnemonic) (operands : List (Operand α))
  /-- A comma-separated list of data. -/
  | data (values : List Int)
  deriving DecidableEq, Repr

/-- The assembler's errors (R122). -/
inductive AsmError (α : Type) where
  | parse
  | unknownSection (n : SectionName)
  | duplicateSymbol (l : α)
  | unresolvedSymbol (l : α)
  | immediateRange (v : Int)
  | registerRange (n : Nat)
  | addressRange (v : Int)
  | sectionOverflow (n : SectionName)
  | layout (n : SectionName)
  deriving DecidableEq, Repr

/-- An error with the number of the statement it is reported for, counted from 0 (R122). -/
structure AsmFailure (α : Type) where
  line : Nat
  error : AsmError α
  deriving DecidableEq, Repr

/-- "register operands validated as `0..7` else `RegisterRangeError`" (R120). -/
def registerOperand {α : Type} (n : Nat) : Except (AsmError α) Reg :=
  if n ≤ 7 then .ok (BitVec.ofNat 3 n) else .error (.registerRange n)

/-- "range-checked to fit the field width (8 bits for R-class, else `ImmediateRangeError`)" (R120, R103). -/
def immediateOperand {α : Type} (v : Int) : Except (AsmError α) Imm8 :=
  if -128 ≤ v ∧ v ≤ 127 then .ok (BitVec.ofInt 8 v) else .error (.immediateRange v)

/-- "range-checked to the address-field width (11 bits) else `AddressRangeError`" (R120). -/
def addressLiteral {α : Type} (v : Int) : Except (AsmError α) Addr :=
  if 0 ≤ v ∧ v ≤ 2047 then .ok (BitVec.ofInt 11 v) else .error (.addressRange v)

/-- The symbol table, and a label's value in it (R115). -/
def symbolValue {α : Type} [DecidableEq α] (symbols : List (α × Nat)) (l : α) : Option Nat :=
  (symbols.find? fun e => e.1 == l).map Prod.snd

/-- An `addr` operand: a label or a literal (R116, R120). -/
def addressOperand {α : Type} [DecidableEq α] (symbols : List (α × Nat)) :
    Operand α → Except (AsmError α) Addr
  | .literal v => addressLiteral v
  | .label l =>
    match symbolValue symbols l with
    | some a => addressLiteral (a : Int)
    | none => .error (.unresolvedSymbol l)
  | .reg _ => .error .parse
  | .regAddress _ => .error .parse

/-- `dest,#imm` (R116). Which error a statement with several has is not stated: here and in the forms below the operands are checked
from left to right and the first error is reported (DESIGN CHOICE: notes/assumptions/18.md). -/
def immediateForm {α : Type} (make : Reg → Imm8 → Instr) (d : Nat) (v : Int) : Except (AsmError α) Instr := do
  let d ← registerOperand d
  let v ← immediateOperand v
  return make d v

/-- `dest,src1` (R116). -/
def registerForm2 {α : Type} (make : Reg → Reg → Instr) (d a : Nat) : Except (AsmError α) Instr := do
  let d ← registerOperand d
  let a ← registerOperand a
  return make d a

/-- `dest,src1,src2` (R116). -/
def registerForm3 {α : Type} (make : Reg → Reg → Reg → Instr) (d a b : Nat) : Except (AsmError α) Instr := do
  let d ← registerOperand d
  let a ← registerOperand a
  let b ← registerOperand b
  return make d a b

/-- The R-class statements with an immediate form and a two-register form (R116). -/
def twoOperands {α : Type} (immediate : Reg → Imm8 → Instr) (register : Reg → Reg → Instr) :
    List (Operand α) → Except (AsmError α) Instr
  | [.reg d, .literal v] => immediateForm immediate d v
  | [.reg d, .reg a] => registerForm2 register d a
  | _ => .error .parse

/-- The R-class statements with an immediate form and a three-register form (R116). -/
def threeOperands {α : Type} (immediate : Reg → Imm8 → Instr) (register : Reg → Reg → Reg → Instr) :
    List (Operand α) → Except (AsmError α) Instr
  | [.reg d, .literal v] => immediateForm immediate d v
  | [.reg d, .reg a, .reg b] => registerForm3 register d a b
  | _ => .error .parse

/-- `LDR dest,src1`, the second register possibly written `&rN` (R116, R117). -/
def loadOperands {α : Type} : List (Operand α) → Except (AsmError α) Instr
  | [.reg d, .reg a] => registerForm2 .ldr d a
  | [.reg d, .regAddress a] => registerForm2 .ldr d a
  | _ => .error .parse

/-- The A-class statements (R116). -/
def addressOperands {α : Type} [DecidableEq α] (symbols : List (α × Nat)) (make : Addr → Instr) :
    List (Operand α) → Except (AsmError α) Instr
  | [x] => (addressOperand symbols x).map make
  | _ => .error .parse

/-- The instruction that a statement stands for (R116, R120). There is no pseudo-instruction (R125). -/
def assembleInstr {α : Type} [DecidableEq α] (symbols : List (α × Nat)) (m : Mnemonic) (xs : List (Operand α)) :
    Except (AsmError α) Instr :=
  match m with
  | .mov => twoOperands .movImm .movReg xs
  | .cmp => twoOperands .cmpImm .cmpReg xs
  | .add => threeOperands .addImm .addReg xs
  | .sub => threeOperands .subImm .subReg xs
  | .shl => threeOperands .shlImm .shlReg xs
  | .ldr => loadOperands xs
  | .lda => addressOperands symbols .lda xs
  | .load => addressOperands symbols .load xs
  | .str => addressOperands symbols .str xs
  | .jmp => addressOperands symbols .jmp xs
  | .beq => addressOperands symbols .beq xs
  | .bne => addressOperands symbols .bne xs
  | .halt => if xs.isEmpty then .ok .halt else .error .parse

/-- What pass 1 places at an address (R119). -/
inductive Item (α : Type) where
  | instr (m : Mnemonic) (operands : List (Operand α))
  | datum (v : Int)
  deriving DecidableEq, Repr

/-- A section's cursor: the next address, and the first address that the section may not write (R119, R121). -/
structure Cursor where
  next : Nat
  limit : Nat
  deriving DecidableEq, Repr

/-- An item with its statement's number and its address. -/
structure Placed (α : Type) where
  line : Nat
  address : Nat
  item : Item α
  deriving DecidableEq, Repr

/-- The sections that a directive may name (R114). -/
inductive DirectiveSection where
  | code
  | data
  deriving DecidableEq, Repr

/-- A directive's section, "unrecognized names fail" (R114). -/
def DirectiveSection.ofName : SectionName → Option DirectiveSection
  | .code => some .code
  | .data => some .data
  | .stack => none
  | .other _ => none

/-- The section's name in the layout. -/
def DirectiveSection.name : DirectiveSection → SectionName
  | .code => .code
  | .data => .data

/-- The state of pass 1 (R119). No section is active before the first directive, since the spec does not say which would be:
a statement that needs one is then a `ParseError` (DESIGN CHOICE, safe: notes/assumptions/18.md). -/
structure PassOne (α : Type) where
  active : Option DirectiveSection
  code : Cursor
  data : Cursor
  symbols : List (α × Nat)
  placed : List (Placed α)
  deriving DecidableEq, Repr

/-- The active section's cursor. -/
def PassOne.cursor {α : Type} (p : PassOne α) : DirectiveSection → Cursor
  | .code => p.code
  | .data => p.data

/-- `p` with one section's cursor moved on by one Word. -/
def PassOne.bump {α : Type} (p : PassOne α) : DirectiveSection → PassOne α
  | .code => { p with code := { p.code with next := p.code.next + 1 } }
  | .data => { p with data := { p.data with next := p.data.next + 1 } }

/-- Places one Word at the active cursor; past the section's length, or at another section's base, it is `SectionOverflowError`
(R119, R121). -/
def PassOne.place {α : Type} (p : PassOne α) (line : Nat) (item : Item α) : Except (AsmError α) (PassOne α) :=
  match p.active with
  | none => .error .parse
  | some sec =>
    let c := p.cursor sec
    if c.next < c.limit then .ok { p.bump sec with placed := p.placed ++ [⟨line, c.next, item⟩] }
    else .error (.sectionOverflow sec.name)

/-- Places a data list, one Word a literal (R118, R119). -/
def PassOne.placeData {α : Type} (p : PassOne α) (line : Nat) : List Int → Except (AsmError α) (PassOne α)
  | [] => .ok p
  | v :: rest => (p.place line (.datum v)).bind fun q => q.placeData line rest

/-- "records `name → current_cursor` in the symbol table; duplicate labels fail" (R115, R124). -/
def PassOne.declare {α : Type} [DecidableEq α] (p : PassOne α) (l : α) : Except (AsmError α) (PassOne α) :=
  match p.active, symbolValue p.symbols l with
  | none, _ => .error .parse
  | some _, some _ => .error (.duplicateSymbol l)
  | some sec, none => .ok { p with symbols := p.symbols ++ [(l, (p.cursor sec).next)] }

/-- One statement of pass 1 (R119). -/
def PassOne.statement {α : Type} [DecidableEq α] (p : PassOne α) (line : Nat) :
    Statement α → Except (AsmError α) (PassOne α)
  | .directive n =>
    match DirectiveSection.ofName n with
    | some sec => .ok { p with active := some sec }
    | none => .error (.unknownSection n)
  | .declare l => p.declare l
  | .instr m xs => p.place line (.instr m xs)
  | .data vs => p.placeData line vs

/-- Pass 1 from statement number `line` on (R119). -/
def PassOne.run {α : Type} [DecidableEq α] (p : PassOne α) (line : Nat) :
    List (Statement α) → Except (AsmFailure α) (PassOne α)
  | [] => .ok p
  | x :: rest =>
    match p.statement line x with
    | .ok q => q.run (line + 1) rest
    | .error e => .error ⟨line, e⟩

/-- The first address from `base` on that the section `n` may not write: the end of its range, or the base of another section
inside the range, which in a valid layout only an empty section has (R121). -/
def sectionLimit (l : Layout) (n : SectionName) (base length : Nat) : Nat :=
  (l.sections.eraseP fun x => x.name == n).foldl (fun e x => if base ≤ x.base then min e x.base else e) (base + length)

/-- A section's cursor at its base. A section that the layout lacks has no room, and a label declared there has the value 0, with
no error (DESIGN CHOICE: notes/assumptions/18.md). -/
def sectionCursor (l : Layout) (n : SectionName) : Cursor :=
  match l.resolve n with
  | some (base, length) => { next := base, limit := sectionLimit l n base length }
  | none => { next := 0, limit := 0 }

/-- Pass 1 before the first statement (R119). -/
def PassOne.start {α : Type} (l : Layout) : PassOne α where
  active := none
  code := sectionCursor l .code
  data := sectionCursor l .data
  symbols := []
  placed := []

/-- The Word of a datum, `v mod 65536` (R118). -/
def datumWord (v : Int) : Word := BitVec.ofInt 16 v

/-- Pass 2 on one item (R120). -/
def encodeItem {α : Type} [DecidableEq α] (o : OpcodeMap) (symbols : List (α × Nat)) :
    Item α → Except (AsmError α) Word
  | .instr m xs => (assembleInstr symbols m xs).map (encode o)
  | .datum v => .ok (datumWord v)

/-- Pass 2: each item is written at its pass-1 address (R120, R123). -/
def passTwo {α : Type} [DecidableEq α] (o : OpcodeMap) (symbols : List (α × Nat)) :
    List (Placed α) → List Word → Except (AsmFailure α) (List Word)
  | [], image => .ok image
  | x :: rest, image =>
    match encodeItem o symbols x.item with
    | .ok w => passTwo o symbols rest (image.set x.address w)
    | .error e => .error ⟨x.line, e⟩

/-- The assembler: all or nothing (R122), an image of `total_size` Words with unused locations zero (R123). A `LayoutError` belongs
to no statement, and the spec gives it no line: the model reports number 0 (DESIGN CHOICE: notes/assumptions/18.md). -/
def assemble {α : Type} [DecidableEq α] (l : Layout) (o : OpcodeMap) (program : List (Statement α)) :
    Except (AsmFailure α) (List Word) :=
  match l.check with
  | .error e => .error ⟨0, .layout e.offending⟩
  | .ok _ =>
    match (PassOne.start l).run 0 program with
    | .error e => .error e
    | .ok p => passTwo o p.symbols p.placed (List.replicate l.totalSize 0)

end Sys2Proof.Machine
end

