-- ==== Sys2Proof/Machine/Reset.lean ====
section
/-!
DEFINITION. Reset: reset as an input of the core with any parameters and any image (spec/70_reset_and_hazards.md R280 to
R286), and the start of a run by the host (spec/60_exceptions.md R255).
-/
namespace Sys2Proof.Machine

/-- The memory that holds the Words of a list at the addresses from `a` on. -/
def Memory.ofWords : Nat → List Word → Memory
  | _, [] => []
  | a, w :: rest => Memory.cons a w (Memory.ofWords (a + 1) rest)

/-- The state after reset with parameters `cfg` and image `image` (R45): every piece of state, whatever it was before. -/
def State.resetTo (cfg : Config) (image : List Word) : State where
  regs := Vector.replicate 8 0
  pc := cfg.codeBase
  flag := false
  halted := false
  fault := none
  mem := Memory.ofWords 0 image
  cfg := cfg

/-- Applying reset to a core in state `s` (R280): it works in any state, also a halted or faulted one, keeps nothing of
the state, and reloads memory from the image. The parameters stay. -/
def State.applyReset (s : State) (image : List Word) : State := State.resetTo s.cfg image

/-- The start of a run. Reset is defined only for parameters within R8 and an image of exactly `MEM_SIZE` Words, and the
host refuses anything else (R282, R286). -/
def boot (cfg : Config) (image : List Word) : Option State :=
  if cfg.wf && image.length == cfg.memSize then some (State.resetTo cfg image) else none

/-- SCPU's `execute(image, layout)` up to its first step (R255, R280). -/
def start (l : Layout) (opc : OpcodeMap) (haltAdvancesPc : Bool) (image : List Word) : Option State :=
  (l.toConfig opc haltAdvancesPc).bind fun cfg => boot cfg image

end Sys2Proof.Machine
end

