-- ==== Sys2Proof/Machine/Run.lean ====
section
/-!
DEFINITION. Run: the sequence of states of a run and its end (spec/40_cycle.md R139 to R141).
-/
namespace Sys2Proof.Machine

/-- The next state of a step, if it has one. -/
def nextState : Host.Outcome State Fault Refusal → Option State
  | .next t => some t
  | .fault _ => none
  | .refused _ => none

/-- The state after at most `n` steps from `s`. A run stops where there is no next state (R139). It is executed under fuel,
since a run may be infinite (R141). -/
def runFor : Nat → State → State
  | 0, s => s
  | n + 1, s =>
    match nextState (step s) with
    | some t => runFor n t
    | none => s

/-- The run from `s` is over in state `t` (R140). -/
def EndsIn (s t : State) : Prop := t.halted = true ∧ ∃ n, runFor n s = t

end Sys2Proof.Machine
end

