-- ==== Sys2Proof/Machine/Debug.lean ====
section
/-!
DEFINITION. Debug: the host's debugger (spec/60_exceptions.md R250 to R255) and the status output of a fault (R233). They
read the state and advance the core; they never write it.
-/
namespace Sys2Proof.Machine

/-- What `last_instruction` holds after a step that faulted, which the spec does not state (R252). A free value of the debug
interface: notes/assumptions/14.md. -/
opaque lastInstructionAfterFault : State → Option Instr

/-- One debugger session: the state it owns (R250) and the ghost field `last_instruction` (R35). -/
structure Session where
  state : State
  lastInstruction : Option Instr
  deriving DecidableEq, Repr

/-- Creating a debugger session (R255): it takes the image and the layout, as `execute` does, and performs reset (R280), so the
session owns the reset state. Before the first step `last_instruction` is absent (R252). -/
def Session.start (l : Layout) (opc : OpcodeMap) (haltAdvancesPc : Bool) (image : List Word) : Option Session :=
  (Machine.start l opc haltAdvancesPc image).map fun s => { state := s, lastInstruction := none }

/-- The snapshot of R252. It omits memory. -/
structure Snapshot where
  registers : Vector Word 8
  pc : Nat
  flag : Bool
  halted : Bool
  lastInstruction : Option Instr
  deriving DecidableEq, Repr

/-- `inspect()` (R254). -/
def Session.inspect (d : Session) : Snapshot where
  registers := d.state.regs
  pc := d.state.pc
  flag := d.state.flag
  halted := d.state.halted
  lastInstruction := d.lastInstruction

/-- The instruction that the step from `s` to `t` decoded, for the debugger. -/
def decodedBy (s t : State) : Option Instr :=
  match t.fault with
  | some _ => lastInstructionAfterFault s
  | none => some (decode s.cfg.opc (s.mem.read s.pc))

/-- `step()` (R251): exactly one step, or none on a halted core, which leaves the session unchanged. -/
def Session.step (d : Session) : Session :=
  match nextState (Machine.step d.state) with
  | some t => { state := t, lastInstruction := decodedBy d.state t }
  | none => d

/-- The answer of `continue`. -/
inductive ContinueResult where
  /-- The core halted: its final state (R253). -/
  | halted (d : Session)
  /-- `StepLimitExceededError`: the budget is spent, and the session can be continued (R230, R253). -/
  | stepLimitExceeded (d : Session)
  deriving DecidableEq, Repr

/-- `continue(max_steps)` (R253). Where the core halts in the very step that uses up the budget, or is halted already under a
budget of 0, both ends hold and the spec does not say which answer is given: the model answers `halted` (DESIGN CHOICE, safe for
the core: notes/assumptions/15.md). -/
def Session.continueFor : Nat → Session → ContinueResult
  | 0, d => if d.state.halted then .halted d else .stepLimitExceeded d
  | n + 1, d => if d.state.halted then .halted d else Session.continueFor n d.step

/-- `continue()` without a budget returns only when the core halts (R253). -/
def Session.ContinuesTo (d e : Session) : Prop := ∃ n, Session.continueFor n d = .halted e

/-- The cause code of R233. -/
def faultCode : Option FaultRecord → Nat
  | none => 0
  | some (.illegalInstruction _ _) => 1
  | some (.memoryFault _ _) => 2

/-- The 12-bit `pc` field of R233, `none` for code 0. -/
def faultPc : Option FaultRecord → Option (BitVec 12)
  | none => none
  | some (.illegalInstruction pc _) => some (BitVec.ofNat 12 pc)
  | some (.memoryFault pc _) => some (BitVec.ofNat 12 pc)

/-- The 16-bit `word` field (code 1) or `addr` field (code 2) of R233, `none` for code 0. -/
def faultInfo : Option FaultRecord → Option (BitVec 16)
  | none => none
  | some (.illegalInstruction _ w) => some w
  | some (.memoryFault _ a) => some (BitVec.ofNat 16 a)

end Sys2Proof.Machine
end

