-- ==== Sys2Proof/Machine/Image.lean ====
section
/-!
DEFINITION. Image: an image stored as bytes outside the core (spec/20_memory.md R63). The core itself has no bytes; this
is the loader's reading of an image file under the parameter `IMAGE_BYTE_ORDER` (spec/00_scope.md R8).
-/
namespace Sys2Proof.Machine

/-- `IMAGE_BYTE_ORDER`, open (R8, R63). -/
inductive ByteOrder where
  | big
  | little
  deriving DecidableEq, Repr

/-- The Word stored as two bytes, the first at the lower place of the file. -/
def wordOfBytes : ByteOrder → BitVec 8 → BitVec 8 → Word
  | .big, first, second => first ++ second
  | .little, first, second => second ++ first

/-- The image in a list of bytes, if they are whole Words (R66). -/
def imageOfBytes (o : ByteOrder) : List (BitVec 8) → Option (List Word)
  | [] => some []
  | [_] => none
  | a :: b :: rest => (imageOfBytes o rest).map fun ws => wordOfBytes o a b :: ws

/-- The bytes that store an image (R63). -/
def bytesOfImage (o : ByteOrder) : List Word → List (BitVec 8)
  | [] => []
  | w :: rest =>
    match o with
    | .big => w.extractLsb' 8 8 :: w.extractLsb' 0 8 :: bytesOfImage o rest
    | .little => w.extractLsb' 0 8 :: w.extractLsb' 8 8 :: bytesOfImage o rest

end Sys2Proof.Machine
end

