-- ==== Sys2Proof/Machine/Bus.lean ====
section
/-!
DEFINITION. Bus: the abstract memory interface of spec/20_memory.md R73, as the accesses that a step issues. It is a view of
the step, and nothing in the step depends on it.
-/
namespace Sys2Proof.Machine

/-- An access presented to the memory: an 11-bit address, 16 bits of data (R73). -/
inductive BusAccess where
  | read (a : Addr)
  | write (a : Addr) (v : Word)
  deriving DecidableEq, Repr

/-- The address that the instruction uses for its data access, if it makes one (R57). -/
def dataAddress (s : State) : Instr → Option Nat
  | .movImm _ _ => none
  | .movReg _ _ => none
  | .cmpImm _ _ => none
  | .cmpReg _ _ => none
  | .addImm _ _ => none
  | .addReg _ _ _ => none
  | .subImm _ _ => none
  | .subReg _ _ _ => none
  | .shlImm _ _ => none
  | .shlReg _ _ _ => none
  | .ldr _ s1 => some (wordAddress (s.reg s1))
  | .ldrNoImm _ => none
  | .lda _ => none
  | .load addr => some (fieldAddress addr)
  | .str addr => some (fieldAddress addr)
  | .jmp _ => none
  | .beq _ => none
  | .bne _ => none
  | .halt => none
  | .opcodeUnnamed _ => none
  | .opcodeReserved _ => none

/-- The instruction's data access is a write (R57): `STR` is the only store. -/
def storesData : Instr → Bool
  | .movImm _ _ => false
  | .movReg _ _ => false
  | .cmpImm _ _ => false
  | .cmpReg _ _ => false
  | .addImm _ _ => false
  | .addReg _ _ _ => false
  | .subImm _ _ => false
  | .subReg _ _ _ => false
  | .shlImm _ _ => false
  | .shlReg _ _ _ => false
  | .ldr _ _ => false
  | .ldrNoImm _ => false
  | .lda _ => false
  | .load _ => false
  | .str _ => true
  | .jmp _ => false
  | .beq _ => false
  | .bne _ => false
  | .halt => false
  | .opcodeUnnamed _ => false
  | .opcodeReserved _ => false

/-- The data accesses an instruction issues: at most one, and none at an address not below `MEM_SIZE` (R73). -/
def dataAccesses (s : State) (i : Instr) : List BusAccess :=
  match dataAddress s i with
  | none => []
  | some a =>
    if a < s.cfg.memSize then
      if storesData i then [.write (BitVec.ofNat 11 a) (s.reg mbr)] else [.read (BitVec.ofNat 11 a)]
    else []

/-- The accesses that the step from `s` issues, in order: the fetch, then the data access (R73). -/
def stepAccesses (s : State) : List BusAccess :=
  if s.halted then []
  else if s.pc < s.cfg.memSize then
    .read (BitVec.ofNat 11 s.pc) :: dataAccesses s (decode s.cfg.opc (s.mem.read s.pc))
  else []

end Sys2Proof.Machine
end

