-- ==== Sys2Proof/Safety.lean ====
section
/-!
DEFINITION. Safety: how a run ends (spec/00_scope.md R16, spec/40_cycle.md R140), the invariants of the state, and which
Words a claim should rest on (spec/93_implementation_defined.md U2 to U8).
-/
namespace Sys2Proof.Machine

/-- The run ended well: `halted` with no fault (R16, R140). -/
def State.endedWell (s : State) : Bool := s.halted && s.fault.isNone

/-- The run failed: `halted` by a fault (R16, R140, R239). -/
def State.endedBadly (s : State) : Bool := s.halted && s.fault.isSome

/-- A run from `s` that ends, and ends well. -/
def RunsWell (s : State) : Prop := ∃ t, EndsIn s t ∧ t.endedWell = true

/-- What holds of every state of a run: the parameters are within R8, the memory has its canonical form and lists no address
outside `[0, MEM_SIZE)` (R52), the PC is in `0..2048` (R26), and a core with a fault is halted (R30). -/
structure State.Inv (s : State) : Prop where
  cfg_wf : s.cfg.wf = true
  mem_wf : s.mem.wf = true
  mem_below : s.mem.below s.cfg.memSize = true
  pc_le : s.pc ≤ memMax
  fault_halted : s.fault.isSome = true → s.halted = true

/-- The fault descriptor describes the state it stands in: what each descriptor says of the PC, the memory and the
instruction at the PC (R30, R231, R232, R236). -/
def State.faultDescribes (s : State) : FaultRecord → Prop
  | .illegalInstruction pc w =>
    pc = s.pc ∧ pc < s.cfg.memSize ∧ s.mem.read pc = w ∧ (decode s.cfg.opc w).illegalWord = some w
  | .memoryFault pc addr =>
    pc = s.pc ∧ s.cfg.memSize ≤ addr ∧
      (addr ≠ pc → pc < s.cfg.memSize ∧ dataAddress s (decode s.cfg.opc (s.mem.read pc)) = some addr)

/-- A fault descriptor, if there is one, describes the state. -/
def State.FaultPrecise (s : State) : Prop := ∀ f, s.fault = some f → s.faultDescribes f

/-- A Word on which the original hardware and this model cannot differ by an ignored bit: all its ignored bits are 0
(U3, U4, U8, U9). -/
def canonicalWord (o : OpcodeMap) (w : Word) : Bool := w &&& ignoredBits o w == 0

/-- An immediate `SHL` in the range the spec fixes (U6). Any other instruction passes. -/
def shiftInRange : Instr → Bool
  | .shlImm _ imm => decide (imm ≤ 15#8)
  | .movImm _ _ => true
  | .movReg _ _ => true
  | .cmpImm _ _ => true
  | .cmpReg _ _ => true
  | .addImm _ _ => true
  | .addReg _ _ _ => true
  | .subImm _ _ => true
  | .subReg _ _ _ => true
  | .shlReg _ _ _ => true
  | .ldr _ _ => true
  | .ldrNoImm _ => true
  | .lda _ => true
  | .load _ => true
  | .str _ => true
  | .jmp _ => true
  | .beq _ => true
  | .bne _ => true
  | .halt => true
  | .opcodeUnnamed _ => true
  | .opcodeReserved _ => true

/-- The Words that spec/93_implementation_defined.md advises a claim about a program to admit on an executed path: legal
(U2, U7), with no ignored bit set (U3, U4, U8), and no immediate `SHL` out of range (U6). The step admits every Word. -/
def admittedWord (o : OpcodeMap) (w : Word) : Bool :=
  (decode o w).illegalWord.isNone && canonicalWord o w && shiftInRange (decode o w)

end Sys2Proof.Machine
end

