-- ==== Sys2Proof/Certificates/Slice0/Obligations.lean ====
section
/-!
DEFINITION. The statements for the provers, and the predicates they are written in (`Sys2Proof.Claims`), which say a result
or a frame through reads of one register and of one Word.
-/
namespace Sys2Proof.Claims
open Sys2Proof.Machine

/-- Every register reads as before. -/
def SameRegs (s t : State) : Prop := ∀ r, t.reg r = s.reg r

/-- Every Word of memory reads as before. -/
def SameMemory (s t : State) : Prop := ∀ a, t.mem.read a = s.mem.read a

/-- The instruction completed with no fault: `halted`, `fault` and the parameters are as before. -/
def SameControl (s t : State) : Prop := t.halted = s.halted ∧ t.fault = s.fault ∧ t.cfg = s.cfg

/-- `x[d] <- v; pc <- pc + 1`, and nothing else. -/
def WritesRegister (s t : State) (d : Reg) (v : Word) : Prop :=
  t.reg d = v ∧ (∀ r, r ≠ d → t.reg r = s.reg r) ∧ t.pc = s.pc + 1 ∧ t.flag = s.flag ∧ SameMemory s t ∧ SameControl s t

/-- `flag <- b; pc <- pc + 1`, and nothing else. -/
def WritesFlag (s t : State) (b : Bool) : Prop :=
  t.flag = b ∧ SameRegs s t ∧ t.pc = s.pc + 1 ∧ SameMemory s t ∧ SameControl s t

/-- `pc <- p`, and nothing else. -/
def WritesPc (s t : State) (p : Nat) : Prop :=
  t.pc = p ∧ SameRegs s t ∧ t.flag = s.flag ∧ SameMemory s t ∧ SameControl s t

/-- The fault `f` was taken: `fault` and `halted` are written, and nothing else (R236). -/
def TakesFault (s t : State) (f : FaultRecord) : Prop :=
  t.fault = some f ∧ t.halted = true ∧ SameRegs s t ∧ t.pc = s.pc ∧ t.flag = s.flag ∧ SameMemory s t ∧ t.cfg = s.cfg

/-- The Word whose two's-complement reading is that of the immediate (R88). -/
def signed (imm : Imm8) : Word := BitVec.ofInt 16 imm.toInt

/-- A row of R92: under the default numbering, the Words with these fixed bits decode to this form. The opcode numbers and the
places of the fields are the spec's own decisions D1 and D4 (notes/assumptions/1.md), so every statement with a `Row` is derived. -/
def Row (mask value : Word) (form : Word → Instr) : Prop :=
  ∀ w : Word, w &&& mask = value → decode OpcodeMap.listing w = form w

/-- The registers that an instruction reads (R24). -/
def readsRegister (r : Reg) : Instr → Prop
  | .movImm _ _ => False
  | .movReg _ s1 => r = s1
  | .cmpImm d _ => r = d
  | .cmpReg d s1 => r = d ∨ r = s1
  | .addImm d _ => r = d
  | .addReg _ s1 s2 => r = s1 ∨ r = s2
  | .subImm d _ => r = d
  | .subReg _ s1 s2 => r = s1 ∨ r = s2
  | .shlImm d _ => r = d
  | .shlReg _ s1 s2 => r = s1 ∨ r = s2
  | .ldr _ s1 => r = s1
  | .ldrNoImm _ => False
  | .lda _ => False
  | .load _ => False
  | .str _ => r = 7
  | .jmp _ => False
  | .beq _ => False
  | .bne _ => False
  | .halt => False
  | .opcodeUnnamed _ => False
  | .opcodeReserved _ => False

/-- The register that an instruction writes (R24). -/
def writtenRegister : Instr → Option Reg
  | .movImm d _ => some d
  | .movReg d _ => some d
  | .cmpImm _ _ => none
  | .cmpReg _ _ => none
  | .addImm d _ => some d
  | .addReg d _ _ => some d
  | .subImm d _ => some d
  | .subReg d _ _ => some d
  | .shlImm d _ => some d
  | .shlReg d _ _ => some d
  | .ldr d _ => some d
  | .ldrNoImm _ => none
  | .lda _ => some 7
  | .load _ => some 7
  | .str _ => none
  | .jmp _ => none
  | .beq _ => none
  | .bne _ => none
  | .halt => none
  | .opcodeUnnamed _ => none
  | .opcodeReserved _ => none

/-- The address that the instruction's data access uses, computed from the rules of `LDR`, `LOAD` and `STR` (R57). -/
def accessAddress (s : State) : Instr → Option Nat
  | .ldr _ s1 => some (s.reg s1).toNat
  | .load addr => some addr.toNat
  | .str addr => some addr.toNat
  | .movImm _ _ => none
  | .movReg _ _ => none
  | .cmpImm _ _ => none
  | .cmpReg _ _ => none
  | .addImm _ _ => none
  | .addReg _ _ _ => none
  | .subImm _ _ => none
  | .subReg _ _ _ => none
  | .shlImm _ _ => none
  | .shlReg _ _ _ => none
  | .ldrNoImm _ => none
  | .lda _ => none
  | .jmp _ => none
  | .beq _ => none
  | .bne _ => none
  | .halt => none
  | .opcodeUnnamed _ => none
  | .opcodeReserved _ => none

/-- The fault that the step from a running state takes, in the order of R235: fetch, decode, data access. -/
def stepFault (s : State) : Option FaultRecord :=
  if s.cfg.memSize ≤ s.pc then some (.memoryFault s.pc s.pc)
  else
    let i := decode s.cfg.opc (s.mem.read s.pc)
    match i.illegalWord, accessAddress s i with
    | some w, _ => some (.illegalInstruction s.pc w)
    | none, some a => if s.cfg.memSize ≤ a then some (.memoryFault s.pc a) else none
    | none, none => none

/-- The immediate of an immediate form. -/
def immediateOf : Instr → Option Imm8
  | .movImm _ imm => some imm
  | .cmpImm _ imm => some imm
  | .addImm _ imm => some imm
  | .subImm _ imm => some imm
  | .shlImm _ imm => some imm
  | .movReg _ _ => none
  | .cmpReg _ _ => none
  | .addReg _ _ _ => none
  | .subReg _ _ _ => none
  | .shlReg _ _ _ => none
  | .ldr _ _ => none
  | .ldrNoImm _ => none
  | .lda _ => none
  | .load _ => none
  | .str _ => none
  | .jmp _ => none
  | .beq _ => none
  | .bne _ => none
  | .halt => none
  | .opcodeUnnamed _ => none
  | .opcodeReserved _ => none

/-- The Words of memory that an instruction at `pc` can see: its own and the one at its data address. -/
def SeesSame (s : State) (m : Memory) : Prop :=
  m.read s.pc = s.mem.read s.pc ∧
    ∀ a, accessAddress s (decode s.cfg.opc (s.mem.read s.pc)) = some a → m.read a = s.mem.read a

/-- The opcode value is an illegal one under `o`, or that of `LDR` in a Word with `mode = 0` (R231). -/
def IllegalWord (o : OpcodeMap) (w : Word) : Prop :=
  w.extractLsb 15 12 = 14#4 ∨ w.extractLsb 15 12 = 15#4 ∨
    (w.extractLsb 15 12 ≤ 13#4 ∧ ∀ m, o.code m ≠ w.extractLsb 15 12) ∨
      (w.extractLsb 15 12 = o.code .ldr ∧ w.getLsbD 8 = false)

/-- The instructions and the data of a program in their order, with the numbers of their statements, counted from `line`. -/
def itemsFrom (line : Nat) : List (Statement Nat) → List (Nat × Item Nat)
  | [] => []
  | .directive _ :: rest => itemsFrom (line + 1) rest
  | .declare _ :: rest => itemsFrom (line + 1) rest
  | .instr m xs :: rest => (line, .instr m xs) :: itemsFrom (line + 1) rest
  | .data vs :: rest => vs.map (fun v => (line, .datum v)) ++ itemsFrom (line + 1) rest

end Sys2Proof.Claims

open Sys2Proof Sys2Proof.Machine Sys2Proof.Claims

/-! Encoding. -/

/-- R103, its four laws, for every numbering within R8: decode inverts encode; an immediate survives both, and one out of
range does not assemble; encode inverts decode exactly on the Words whose ignored bits are 0, and decode is not injective;
no encoded instruction is illegal. The laws also run over the three illegal rows, which carry and encode to their raw Word (the
model's choice, notes/assumptions/7.md), and the ignored bits are the spec's decisions D5 and D6 (notes/assumptions/10.md). -/
def Obligations.EncodeDecodeLaws : Prop :=
  ∀ o : OpcodeMap, o.wf = true →
    (∀ i : Instr, i.wf o = true → decode o (encode o i) = i) ∧
    (∀ (m : Mnemonic) (d : Nat) (v : Int), m ∈ [Mnemonic.mov, .cmp, .add, .sub, .shl] → d ≤ 7 →
      (-128 ≤ v ∧ v ≤ 127 → ∃ i imm, assembleInstr (α := Nat) [] m [.reg d, .literal v] = .ok i ∧
        immediateOf (decode o (encode o i)) = some imm ∧ imm.toInt = v) ∧
      (v < -128 ∨ 127 < v → assembleInstr (α := Nat) [] m [.reg d, .literal v] = .error (.immediateRange v))) ∧
    (∀ w : Word, encode o (decode o w) = w ↔ w &&& ignoredBits o w = 0) ∧
    (∃ w w' : Word, w ≠ w' ∧ decode o w = decode o w') ∧
    (∀ i : Instr, i.illegalWord = none → (decode o (encode o i)).illegalWord = none)

/-- Every Word decodes to a well-formed instruction, and an illegal one keeps the Word. R100 has only `Illegal` for such a Word; that
it decodes to a well-formed term that keeps the Word is the model's choice (notes/assumptions/7.md). -/
def Obligations.DecodeIsWellFormed : Prop :=
  ∀ (o : OpcodeMap) (w : Word), o.wf = true →
    (decode o w).wf o = true ∧ ∀ w', (decode o w).illegalWord = some w' → w' = w

/-- R107, R108, R109: an instruction's Word decodes as the same Word with the ignored bits cleared, and the encoder writes
them as 0. -/
def Obligations.IgnoredBitsAreIgnored : Prop :=
  ∀ o : OpcodeMap, o.wf = true →
    (∀ w : Word, w.getLsbD 8 = true →
      (o.code .mov = w.extractLsb 15 12 ∨ o.code .cmp = w.extractLsb 15 12 ∨ o.code .ldr = w.extractLsb 15 12 →
        decode o (w &&& 0xFFE0) = decode o w ∧ (decode o w).illegalWord = none) ∧
      (o.code .add = w.extractLsb 15 12 ∨ o.code .sub = w.extractLsb 15 12 ∨ o.code .shl = w.extractLsb 15 12 →
        decode o (w &&& 0xFFFC) = decode o w ∧ (decode o w).illegalWord = none)) ∧
    (∀ (w : Word) (m : Mnemonic), m ∈ [Mnemonic.lda, .load, .str, .jmp, .beq, .bne] → o.code m = w.extractLsb 15 12 →
      decode o (w &&& 0xF7FF) = decode o w ∧ (decode o w).illegalWord = none) ∧
    (∀ w : Word, o.code .halt = w.extractLsb 15 12 → decode o w = .halt) ∧
    (∀ d s1 s2 : Reg, encode o (.movReg d s1) &&& 0x001F = 0 ∧ encode o (.cmpReg d s1) &&& 0x001F = 0 ∧
      encode o (.ldr d s1) &&& 0x001F = 0 ∧ encode o (.addReg d s1 s2) &&& 0x0003 = 0 ∧
      encode o (.subReg d s1 s2) &&& 0x0003 = 0 ∧ encode o (.shlReg d s1 s2) &&& 0x0003 = 0) ∧
    (∀ a : Addr, encode o (.lda a) &&& 0x0800 = 0 ∧ encode o (.load a) &&& 0x0800 = 0 ∧ encode o (.str a) &&& 0x0800 = 0 ∧
      encode o (.jmp a) &&& 0x0800 = 0 ∧ encode o (.beq a) &&& 0x0800 = 0 ∧ encode o (.bne a) &&& 0x0800 = 0) ∧
    encode o .halt &&& 0x0FFF = 0

/-- Words written out from R92 decode to what they stand for, one of each class and of each illegal row. -/
def Obligations.SampleWordsDecode : Prop :=
  decode OpcodeMap.listing 0b0000_010_1_111_000_00 = .movReg 2 7 ∧
  decode OpcodeMap.listing 0b0010_001_0_11001000 = .addImm 1 0xC8 ∧
  decode OpcodeMap.listing 0b0011_000_1_001_010_00 = .subReg 0 1 2 ∧
  decode OpcodeMap.listing 0b0101_100_1_010_000_00 = .ldr 4 2 ∧
  decode OpcodeMap.listing 0b1011_0_00000000100 = .bne 4 ∧
  decode OpcodeMap.listing 0b1100_000000000000 = .halt ∧
  decode OpcodeMap.listing 0b0101_000_0_11111111 = .ldrNoImm 0x50FF ∧
  decode OpcodeMap.listing 0b1101_000000000000 = .opcodeUnnamed 0xD000 ∧
  decode OpcodeMap.listing 0b1111_000100100011 = .opcodeReserved 0xF123

/-- R231: the fetched Word raises `IllegalInstruction`, with the PC of the fetch and the Word, exactly if it is one of the
Words the rule lists. That opcode values 14, 15 and the unnamed one are illegal is the spec's decision D3 and D2
(notes/assumptions/7.md). -/
def Obligations.IllegalInstructionExactly : Prop :=
  ∀ s : State, s.cfg.wf = true → s.halted = false → s.fault = none → s.pc < s.cfg.memSize →
    ((∃ t, step s = .next t ∧ TakesFault s t (.illegalInstruction s.pc (s.mem.read s.pc))) ↔
      IllegalWord s.cfg.opc (s.mem.read s.pc)) ∧
    (∀ t pc w, step s = .next t → t.fault = some (.illegalInstruction pc w) → pc = s.pc ∧ w = s.mem.read s.pc)

/-! The step. -/

/-- When the Word at the PC decodes to `i`, the step of a running core is `exec i`, with nothing around it. -/
def Obligations.StepRunsDecodedInstruction : Prop :=
  ∀ (s : State) (i : Instr), s.halted = false → s.pc < s.cfg.memSize →
    decode s.cfg.opc (s.mem.read s.pc) = i → i.wf s.cfg.opc = true → step s = exec i s

/-- R132: the fetch compares the PC with `MEM_SIZE` first. Beyond it, the step raises `MemoryFault(pc, pc)`, whatever the memory
is; otherwise the fetch reads `mem[pc]`. -/
def Obligations.FetchOutOfRangeFaults : Prop :=
  ∀ s : State, s.halted = false →
    (s.cfg.memSize ≤ s.pc → ∃ t, step s = .next t ∧ TakesFault s t (.memoryFault s.pc s.pc)) ∧
    (s.pc < s.cfg.memSize → s.fetch = .ok (s.mem.read s.pc))

/-- R138: a halted core takes no step, and a debugger's `step()` on it changes nothing. -/
def Obligations.HaltedCoreTakesNoStep : Prop :=
  ∀ s : State, s.halted = true → (∀ t, step s ≠ .next t) ∧ step s = .fault .halted ∧
    ∀ d : Session, d.state = s → d.step = d

/-- R131, "a total, deterministic function": a running core has a next state, in every state. -/
def Obligations.RunningCoreAlwaysSteps : Prop :=
  ∀ s : State, s.halted = false → ∃ t, step s = .next t

/-! The instructions: each completes, with this result and this frame, on every state and all operands. -/

/-- R152, R153: the immediate sign-extended, or the source register, is written (D7: notes/assumptions/11.md). -/
def Obligations.MovResult : Prop :=
  Row 0xF100 0x0000 (fun w => .movImm (w.extractLsb 11 9) (w.extractLsb 7 0)) ∧
  Row 0xF100 0x0100 (fun w => .movReg (w.extractLsb 11 9) (w.extractLsb 7 5)) ∧
  (∀ d imm s, ∃ t, exec (.movImm d imm) s = .next t ∧ WritesRegister s t d (signed imm)) ∧
  (∀ d s1 s, ∃ t, exec (.movReg d s1) s = .next t ∧ WritesRegister s t d (s.reg s1))

/-- R155, R156: the flag is the equality of the 16-bit patterns (D10: notes/assumptions/11.md). -/
def Obligations.CmpResult : Prop :=
  Row 0xF100 0x1000 (fun w => .cmpImm (w.extractLsb 11 9) (w.extractLsb 7 0)) ∧
  Row 0xF100 0x1100 (fun w => .cmpReg (w.extractLsb 11 9) (w.extractLsb 7 5)) ∧
  (∀ d imm s, ∃ t, exec (.cmpImm d imm) s = .next t ∧ WritesFlag s t (decide ((s.reg d).toInt = imm.toInt))) ∧
  (∀ d s1 s, ∃ t, exec (.cmpReg d s1) s = .next t ∧ WritesFlag s t (decide ((s.reg d).toNat = (s.reg s1).toNat)))

/-- R160, R161: the sum modulo 65536 (D8: notes/assumptions/11.md). -/
def Obligations.AddResult : Prop :=
  Row 0xF100 0x2000 (fun w => .addImm (w.extractLsb 11 9) (w.extractLsb 7 0)) ∧
  Row 0xF100 0x2100 (fun w => .addReg (w.extractLsb 11 9) (w.extractLsb 7 5) (w.extractLsb 4 2)) ∧
  (∀ d imm s, ∃ t v, exec (.addImm d imm) s = .next t ∧ WritesRegister s t d v ∧
    v.toNat = ((s.reg d).toNat + (signed imm).toNat) % 65536) ∧
  (∀ d s1 s2 s, ∃ t v, exec (.addReg d s1 s2) s = .next t ∧ WritesRegister s t d v ∧
    v.toNat = ((s.reg s1).toNat + (s.reg s2).toNat) % 65536)

/-- R163, R164: the difference modulo 65536, `src1` minus `src2` (D8: notes/assumptions/11.md). -/
def Obligations.SubResult : Prop :=
  Row 0xF100 0x3000 (fun w => .subImm (w.extractLsb 11 9) (w.extractLsb 7 0)) ∧
  Row 0xF100 0x3100 (fun w => .subReg (w.extractLsb 11 9) (w.extractLsb 7 5) (w.extractLsb 4 2)) ∧
  (∀ d imm s, ∃ t v, exec (.subImm d imm) s = .next t ∧ WritesRegister s t d v ∧
    (v.toNat : Int) = ((s.reg d).toNat - (signed imm).toNat : Int) % 65536) ∧
  (∀ d s1 s2 s, ∃ t v, exec (.subReg d s1 s2) s = .next t ∧ WritesRegister s t d v ∧
    (v.toNat : Int) = ((s.reg s1).toNat - (s.reg s2).toNat : Int) % 65536)

/-- R166, R167, R168: the logical left shift for an amount of `0..15`, and one function of the operand and the amount, the same
for both forms, for an amount of 16 or more (D9: notes/assumptions/5.md; nothing is assumed of it). -/
def Obligations.ShlResult : Prop :=
  Row 0xF100 0x4000 (fun w => .shlImm (w.extractLsb 11 9) (w.extractLsb 7 0)) ∧
  Row 0xF100 0x4100 (fun w => .shlReg (w.extractLsb 11 9) (w.extractLsb 7 5) (w.extractLsb 4 2)) ∧
  ∃ beyond : Word → Word → Word,
    (∀ d imm s, ∃ t v, exec (.shlImm d imm) s = .next t ∧ WritesRegister s t d v ∧
      ((signed imm).toNat ≤ 15 → v.toNat = (s.reg d).toNat * 2 ^ (signed imm).toNat % 65536) ∧
      (16 ≤ (signed imm).toNat → v = beyond (s.reg d) (signed imm))) ∧
    (∀ d s1 s2 s, ∃ t v, exec (.shlReg d s1 s2) s = .next t ∧ WritesRegister s t d v ∧
      ((s.reg s2).toNat ≤ 15 → v.toNat = (s.reg s1).toNat * 2 ^ (s.reg s2).toNat % 65536) ∧
      (16 ≤ (s.reg s2).toNat → v = beyond (s.reg s1) (s.reg s2)))

/-- R171: all 16 bits of `x[src1]` are the address; beyond `MEM_SIZE` the load faults and writes nothing. -/
def Obligations.LdrResult : Prop :=
  Row 0xF100 0x5100 (fun w => .ldr (w.extractLsb 11 9) (w.extractLsb 7 5)) ∧
  (∀ d s1 s, (s.reg s1).toNat < s.cfg.memSize →
    ∃ t, exec (.ldr d s1) s = .next t ∧ WritesRegister s t d (s.mem.read (s.reg s1).toNat)) ∧
  (∀ d s1 s, s.cfg.memSize ≤ (s.reg s1).toNat →
    ∃ t, exec (.ldr d s1) s = .next t ∧ TakesFault s t (.memoryFault s.pc (s.reg s1).toNat))

/-- R192: the address itself, for every address, also one beyond `MEM_SIZE` (D21: notes/assumptions/12.md). -/
def Obligations.LdaResult : Prop :=
  Row 0xF000 0x6000 (fun w => .lda (w.extractLsb 10 0)) ∧
  (∀ addr s, ∃ t v, exec (.lda addr) s = .next t ∧ WritesRegister s t 7 v ∧ v.toNat = addr.toNat)

/-- R195: the Word at the address goes to `x[7]`; beyond `MEM_SIZE` the load faults and writes nothing. -/
def Obligations.LoadResult : Prop :=
  Row 0xF000 0x7000 (fun w => .load (w.extractLsb 10 0)) ∧
  (∀ addr s, addr.toNat < s.cfg.memSize →
    ∃ t, exec (.load addr) s = .next t ∧ WritesRegister s t 7 (s.mem.read addr.toNat)) ∧
  (∀ addr s, s.cfg.memSize ≤ addr.toNat →
    ∃ t, exec (.load addr) s = .next t ∧ TakesFault s t (.memoryFault s.pc addr.toNat))

/-- R198: the Word at the address that `fieldAddress` gives is replaced whole by `x[7]`, and every other Word is unchanged; beyond
`MEM_SIZE` the store faults and writes nothing. -/
def Obligations.StrResult : Prop :=
  Row 0xF000 0x8000 (fun w => .str (w.extractLsb 10 0)) ∧
  (∀ addr s, s.mem.wf = true → fieldAddress addr < s.cfg.memSize →
    ∃ t, exec (.str addr) s = .next t ∧ t.mem.read (fieldAddress addr) = s.reg 7 ∧
      (∀ b, b ≠ fieldAddress addr → t.mem.read b = s.mem.read b) ∧
      fieldAddress addr = addr.toNat ∧ SameRegs s t ∧ t.pc = s.pc + 1 ∧ t.flag = s.flag ∧ SameControl s t) ∧
  (∀ addr s, s.cfg.memSize ≤ addr.toNat →
    ∃ t, exec (.str addr) s = .next t ∧ TakesFault s t (.memoryFault s.pc addr.toNat))

/-- R202: the PC is the address, unchecked, and nothing else changes. -/
def Obligations.JmpResult : Prop :=
  Row 0xF000 0x9000 (fun w => .jmp (w.extractLsb 10 0)) ∧
  (∀ addr s, ∃ t, exec (.jmp addr) s = .next t ∧ WritesPc s t addr.toNat)

/-- R205, R208: the PC is the address or the next one, by the flag, which keeps its value. -/
def Obligations.BranchResult : Prop :=
  Row 0xF000 0xA000 (fun w => .beq (w.extractLsb 10 0)) ∧
  Row 0xF000 0xB000 (fun w => .bne (w.extractLsb 10 0)) ∧
  (∀ addr s, ∃ t, exec (.beq addr) s = .next t ∧ WritesPc s t (if s.flag = true then addr.toNat else s.pc + 1)) ∧
  (∀ addr s, ∃ t, exec (.bne addr) s = .next t ∧ WritesPc s t (if s.flag = false then addr.toNat else s.pc + 1))

/-- R221: `halted` is set and the run is over; the PC advances if `HALT_ADVANCES_PC`; `fault` stays as it is, which is `None` in a
running core (D12: notes/assumptions/13.md). -/
def Obligations.HaltResult : Prop :=
  Row 0xF000 0xC000 (fun _ => .halt) ∧
  (∀ s, ∃ t, exec .halt s = .next t ∧ t.halted = true ∧ t.fault = s.fault ∧
    t.pc = (if s.cfg.haltAdvancesPc = true then s.pc + 1 else s.pc) ∧
    SameRegs s t ∧ t.flag = s.flag ∧ SameMemory s t ∧ t.cfg = s.cfg ∧ ∀ u, step t ≠ .next u)

/-- The three illegal rows of the opcode table: their Words decode to them, and their effect is to take `IllegalInstruction` with
the PC and the Word (R104, R105, R106, R133). -/
def Obligations.IllegalRowsTakeTheFault : Prop :=
  Row 0xF100 0x5000 (fun w => .ldrNoImm w) ∧
  Row 0xF000 0xD000 (fun w => .opcodeUnnamed w) ∧
  Row 0xE000 0xE000 (fun w => .opcodeReserved w) ∧
  (∀ w s, (∃ t, exec (.ldrNoImm w) s = .next t ∧ TakesFault s t (.illegalInstruction s.pc w)) ∧
    (∃ t, exec (.opcodeUnnamed w) s = .next t ∧ TakesFault s t (.illegalInstruction s.pc w)) ∧
    (∃ t, exec (.opcodeReserved w) s = .next t ∧ TakesFault s t (.illegalInstruction s.pc w)))

/-! Rules of the whole machine. -/

/-- Every step keeps the invariant: the parameters' range, the memory's canonical form and extent, the PC in `0..2048`, and a
fault only in a halted core (R8, R26, R30, R52). -/
def Obligations.StepKeepsInvariant : Prop :=
  ∀ s t : State, s.Inv → step s = .next t → t.Inv

/-- The invariant holds at reset. -/
def Obligations.ResetMeetsInvariant : Prop :=
  State.reset.Inv ∧ State.reset.FaultPrecise

/-- A fault descriptor always describes the state it stands in: the PC, and the Word or the address that faulted, can be read
off the halted state (R30, R232, R236). -/
def Obligations.StepKeepsFaultPrecise : Prop :=
  ∀ s t : State, s.Inv → step s = .next t → t.FaultPrecise

/-- Which step raises what, and with which descriptor: fetch before decode before data access (R232, R234, R235). With the
largest memory, `LOAD` and `STR` never fault, and a fetch faults at PC 2048 only. The record `(pc, addr)` of a data fault is the
spec's decision D14 (notes/assumptions/9.md), not the table's. -/
def Obligations.FaultsAsTheTableSays : Prop :=
  (∀ s t : State, s.fault = none → step s = .next t → t.fault = stepFault s) ∧
  (∀ s : State, s.Inv → s.cfg.memSize = 2048 →
    (∀ addr, decode s.cfg.opc (s.mem.read s.pc) = .load addr ∨ decode s.cfg.opc (s.mem.read s.pc) = .str addr →
      s.pc < 2048 → stepFault s = none) ∧
    (stepFault s = some (.memoryFault s.pc s.pc) → s.pc = 2048))

/-- R236: a step that faults writes `fault` and `halted`, and nothing else, so the state is that of the completed previous
instruction. -/
def Obligations.FaultsArePrecise : Prop :=
  ∀ s t : State, s.fault = none → step s = .next t → ∀ f, t.fault = some f →
    t = { s with fault := some f, halted := true }

/-- R28: the flag is written only by `CMP`, read only by `BEQ` and `BNE`, and false at reset, where a `BEQ` falls through and a
`BNE` is taken. -/
def Obligations.FlagWrittenByCmpReadByBranches : Prop :=
  (∀ s t : State, step s = .next t → t.flag ≠ s.flag →
    (decode s.cfg.opc (s.mem.read s.pc)).mnemonic = some .cmp ∧ s.pc < s.cfg.memSize) ∧
  (∀ (i : Instr) (s : State) (b : Bool), i.mnemonic ≠ some .beq → i.mnemonic ≠ some .bne →
    ∃ t u, exec i s = .next t ∧ exec i { s with flag := b } = .next u ∧ { u with flag := t.flag } = t) ∧
  (∀ (s : State) (image : List Word) (addr : Addr), (s.applyReset image).flag = false ∧
    exec (.beq addr) (s.applyReset image) = .next { s.applyReset image with pc := s.cfg.codeBase + 1 } ∧
    exec (.bne addr) (s.applyReset image) = .next { s.applyReset image with pc := addr.toNat })

/-- R29: `halted` is false after reset, becomes true by a `HALT` and by a fault only, is never cleared by a step, and no instruction
reads it. -/
def Obligations.HaltedSetByHaltAndFaults : Prop :=
  (∀ (s : State) (image : List Word), (s.applyReset image).halted = false) ∧
  (∀ s t : State, s.fault = none → step s = .next t →
    (t.halted = true ↔
      t.fault ≠ none ∨ (s.pc < s.cfg.memSize ∧ decode s.cfg.opc (s.mem.read s.pc) = .halt))) ∧
  (∀ s t : State, s.halted = true → step s ≠ .next t) ∧
  (∀ (i : Instr) (s : State) (b : Bool), ∃ t u, exec i s = .next t ∧ exec i { s with halted := b } = .next u ∧
    { u with halted := t.halted } = t)

/-- R57: memory changes by `STR` alone, at its address alone, to `x[7]`. -/
def Obligations.MemoryWrittenByStrOnly : Prop :=
  ∀ s t : State, s.mem.wf = true → step s = .next t → ∀ a, t.mem.read a ≠ s.mem.read a →
    ∃ addr, decode s.cfg.opc (s.mem.read s.pc) = .str addr ∧ fieldAddress addr = a ∧ a < s.cfg.memSize ∧
      t.mem.read a = s.reg 7

/-- R24: an instruction writes no register but the one of the table, so never two; its effect depends on no register but those of
the table; and it uses the PC as no register. -/
def Obligations.RegisterUseAsTheTableSays : Prop :=
  (∀ (i : Instr) (s t : State), exec i s = .next t → ∀ r, t.reg r ≠ s.reg r → writtenRegister i = some r) ∧
  (∀ (i : Instr) (s : State) (x : Vector Word 8), (∀ r, readsRegister r i → { s with regs := x }.reg r = s.reg r) →
    ∃ t u, exec i s = .next t ∧ exec i { s with regs := x } = .next u ∧ { u with regs := t.regs } = t ∧
      ∀ r, writtenRegister i = some r → u.reg r = t.reg r ∨ (t.reg r = s.reg r ∧ u.reg r = { s with regs := x }.reg r)) ∧
  (∀ (i : Instr) (s : State) (p : Nat), ∃ t u, exec i s = .next t ∧ exec i { s with pc := p } = .next u ∧ SameRegs t u)

/-- A step depends on no Word of memory but the fetched one and the one at its data address (R57, R73): with another memory that
agrees there, everything but the memory comes out the same. -/
def Obligations.StepSeesOnlyItsTwoWords : Prop :=
  ∀ (s : State) (m : Memory), s.halted = false → SeesSame s m →
    ∃ t u, step s = .next t ∧ step { s with mem := m } = .next u ∧ { u with mem := t.mem } = t

/-- The parameters of R8 never change. -/
def Obligations.ParametersNeverChange : Prop :=
  ∀ s t : State, step s = .next t → t.cfg = s.cfg

/-- R201: a transfer to a target beyond `MEM_SIZE` faults at the fetch of the next step, with the PC equal to the target, and changes
nothing else. -/
def Obligations.TransferOutOfRangeFaultsOneStepLater : Prop :=
  ∀ (s : State) (addr : Addr), s.halted = false → s.pc < s.cfg.memSize → s.cfg.memSize ≤ addr.toNat →
    (decode s.cfg.opc (s.mem.read s.pc) = .jmp addr ∨
      (decode s.cfg.opc (s.mem.read s.pc) = .beq addr ∧ s.flag = true) ∨
      (decode s.cfg.opc (s.mem.read s.pc) = .bne addr ∧ s.flag = false)) →
    step s = .next { s with pc := addr.toNat } ∧
      runFor 2 s = { s with pc := addr.toNat, halted := true, fault := some (.memoryFault addr.toNat addr.toNat) }

/-- R69: a `STR` to the next address is what the very next step decodes and executes. -/
def Obligations.StoredWordIsFetchedNext : Prop :=
  ∀ (s : State) (addr : Addr), s.mem.wf = true → s.halted = false → s.pc < s.cfg.memSize →
    decode s.cfg.opc (s.mem.read s.pc) = .str addr → addr.toNat = s.pc + 1 → s.pc + 1 < s.cfg.memSize →
    ∃ t, step s = .next t ∧ t.pc = addr.toNat ∧ step t = exec (decode s.cfg.opc (s.reg 7)) t

/-- R26, R291: the PC does not wrap. An instruction at the last address that neither transfers control nor stops leaves the PC
at `MEM_SIZE`, and the next step faults there. -/
def Obligations.PcDoesNotWrap : Prop :=
  ∀ s t : State, s.halted = false → s.fault = none → 1 ≤ s.cfg.memSize → s.pc = s.cfg.memSize - 1 →
    (decode s.cfg.opc (s.mem.read s.pc)).mnemonic ∉ [some .jmp, some .beq, some .bne, some .halt] →
    step s = .next t → t.fault = none →
      t.pc = s.cfg.memSize ∧
        step t = .next { t with halted := true, fault := some (.memoryFault s.cfg.memSize s.cfg.memSize) }

/-- R111, under the default numbering: a PC that runs into zero Words clears `x[0]` at every step until it reaches `MEM_SIZE` and
faults there. The first clause gives the state after each step on the way, the second the end. The numbering is the spec's decision
D1 (notes/assumptions/1.md), the fault at the top D11 (notes/assumptions/8.md). -/
def Obligations.ZeroWordsClearR0UntilTheTop : Prop :=
  ∀ s : State, s.halted = false → s.cfg.opc = OpcodeMap.listing → s.pc < s.cfg.memSize →
    (∀ a, s.pc ≤ a → a < s.cfg.memSize → s.mem.read a = 0) →
    (∀ k, 1 ≤ k → k ≤ s.cfg.memSize - s.pc →
      (runFor k s).reg 0 = 0 ∧ (∀ r, r ≠ 0 → (runFor k s).reg r = s.reg r) ∧ (runFor k s).pc = s.pc + k ∧
        (runFor k s).flag = s.flag ∧ (runFor k s).halted = false ∧ SameMemory s (runFor k s)) ∧
    ∃ t, runFor (s.cfg.memSize - s.pc + 1) s = t ∧
      t.reg 0 = 0 ∧ (∀ r, r ≠ 0 → t.reg r = s.reg r) ∧ t.pc = s.cfg.memSize ∧ t.flag = s.flag ∧ t.halted = true ∧
        t.fault = some (.memoryFault s.cfg.memSize s.cfg.memSize) ∧ SameMemory s t ∧ t.cfg = s.cfg

/-- A run has one end (R139, R140); once it has ended, more fuel changes nothing; and a run goes on from where it stopped. -/
def Obligations.RunEndIsUnique : Prop :=
  (∀ s t u : State, EndsIn s t → EndsIn s u → t = u) ∧
  (∀ (s : State) (m n : Nat), (runFor m s).halted = true → runFor (m + n) s = runFor m s) ∧
  (∀ (s : State) (m n : Nat), runFor (m + n) s = runFor n (runFor m s))

/-! The memory interface, the start of a run, and the host. -/

/-- The accesses of R73, in order. With the PC at or beyond `MEM_SIZE` there is none. Otherwise the fetch is at the PC, and after it
come exactly: the read of `LDR` at `u(x[src1])`, the read of `LOAD` or the write of `STR` at its address, each if the address is below
`MEM_SIZE`; and nothing for any other instruction. The memory after the step is the old one with the writes issued. -/
def Obligations.BusAccessesAreTheSteps : Prop :=
  ∀ s t : State, s.Inv → step s = .next t →
    (s.cfg.memSize ≤ s.pc → stepAccesses s = []) ∧
    (s.pc < s.cfg.memSize → ∃ p rest, stepAccesses s = .read p :: rest ∧ p.toNat = s.pc ∧
      (∀ d s1, decode s.cfg.opc (s.mem.read s.pc) = .ldr d s1 →
        ((s.reg s1).toNat < s.cfg.memSize → ∃ a, rest = [.read a] ∧ a.toNat = (s.reg s1).toNat) ∧
        (s.cfg.memSize ≤ (s.reg s1).toNat → rest = [])) ∧
      (∀ addr, decode s.cfg.opc (s.mem.read s.pc) = .load addr →
        (addr.toNat < s.cfg.memSize → rest = [.read addr]) ∧ (s.cfg.memSize ≤ addr.toNat → rest = [])) ∧
      (∀ addr, decode s.cfg.opc (s.mem.read s.pc) = .str addr →
        (addr.toNat < s.cfg.memSize → rest = [.write addr (s.reg 7)]) ∧ (s.cfg.memSize ≤ addr.toNat → rest = [])) ∧
      (accessAddress s (decode s.cfg.opc (s.mem.read s.pc)) = none → rest = [])) ∧
    (stepAccesses s).length ≤ 2 ∧
    (∀ a, .read a ∈ stepAccesses s → a.toNat < s.cfg.memSize) ∧
    (∀ a v, .write a v ∈ stepAccesses s → a.toNat < s.cfg.memSize ∧ t.mem.read a.toNat = v) ∧
    (∀ b, (∀ a v, .write a v ∈ stepAccesses s → a.toNat ≠ b) → t.mem.read b = s.mem.read b)

/-- R45: the reset value of every piece of state, for all parameters and every image of `MEM_SIZE` Words. -/
def Obligations.ResetValues : Prop :=
  ∀ (cfg : Config) (image : List Word), cfg.wf = true → image.length = cfg.memSize →
    ∃ s, boot cfg image = some s ∧ (∀ r, s.reg r = 0) ∧ s.pc = cfg.codeBase ∧ s.flag = false ∧ s.halted = false ∧
      s.fault = none ∧ s.cfg = cfg ∧ ∀ a, a < cfg.memSize → some (s.mem.read a) = image[a]?

/-- R282, R286: reset is defined for no other parameters and no other image (D24: notes/assumptions/16.md), and every start meets
the invariant. -/
def Obligations.StartMeetsInvariantOrIsRefused : Prop :=
  (∀ (cfg : Config) (image : List Word), cfg.wf = false ∨ image.length ≠ cfg.memSize → boot cfg image = none) ∧
  ∀ (cfg : Config) (image : List Word) (s : State), boot cfg image = some s → s.Inv ∧ s.FaultPrecise

/-- The model's `State.reset` is the start with the default parameters and the image of zeros (the model's choice of input,
notes/assumptions/3.md), and reset applied in any state gives what the start gives (R280). -/
def Obligations.ResetStateIsTheDefaultStart : Prop :=
  boot Config.default (List.replicate 2048 0) = some State.reset ∧
  ∀ (s : State) (image : List Word), s.cfg.wf = true → image.length = s.cfg.memSize →
    boot s.cfg image = some (s.applyReset image)

/-- R58: a layout is valid exactly if every section lies within the total size and no two sections share an address. For empty
sections, that one above the total size is invalid and that none overlaps is the model's choice (notes/assumptions/17.md). -/
def Obligations.LayoutValidExactly : Prop :=
  ∀ l : Layout, l.check = .ok () ↔
    (∀ x ∈ l.sections, x.base + x.length ≤ l.totalSize) ∧
    l.sections.Pairwise fun x y =>
      ¬∃ a, (x.base ≤ a ∧ a < x.base + x.length) ∧ (y.base ≤ a ∧ a < y.base + y.length)

/-- R59: the core takes the total size and the base of the `code` section and no third number; a valid layout of at most 2048 Words
gives a core exactly if its `code` section has its base below the total size, which holds if that section has at least one Word. That
an empty `code` section gives a core is the model's choice (notes/assumptions/17.md). -/
def Obligations.LayoutGivesTwoNumbers : Prop :=
  ∀ (l : Layout) (o : OpcodeMap) (h : Bool), o.wf = true →
    (∀ c, l.toConfig o h = some c → c.wf = true ∧ c.memSize = l.totalSize ∧ c.opc = o ∧ c.haltAdvancesPc = h ∧
      ∃ length, l.resolve .code = some (c.codeBase, length)) ∧
    (∀ base length, l.check = .ok () → l.resolve .code = some (base, length) → l.totalSize ≤ 2048 →
      (1 ≤ length → base < l.totalSize) ∧
      (base < l.totalSize ↔ ∃ c, l.toConfig o h = some c ∧ c.codeBase = base))

/-- R253: `continue` with a budget takes at most that many steps, and says whether the core halted. Where the core halts in the step that
uses up the budget, the answer is that it halted, the model's choice (notes/assumptions/15.md). -/
def Obligations.ContinueRunsWithinBudget : Prop :=
  ∀ (n : Nat) (d : Session), ∃ e : Session, e.state = runFor n d.state ∧
    Session.continueFor n d = if e.state.halted = true then .halted e else .stepLimitExceeded e

/-- R255, R280: a debugger session is created from a layout and an image, by reset: it owns the state that `execute` would start
from, with every register 0, the PC at the base of the `code` section, and the image in memory; `last_instruction` is absent; and
no session is created from an image of another length. -/
def Obligations.SessionStartsAtReset : Prop :=
  ∀ (l : Layout) (o : OpcodeMap) (h : Bool) (image : List Word),
    (∀ d, Session.start l o h image = some d →
      start l o h image = some d.state ∧ d.lastInstruction = none ∧ (∀ r, d.state.reg r = 0) ∧
        (∃ length, l.resolve .code = some (d.state.pc, length)) ∧ d.state.flag = false ∧ d.state.halted = false ∧
        d.state.fault = none ∧ (∀ a, a < l.totalSize → some (d.state.mem.read a) = image[a]?) ∧ d.state.Inv) ∧
    (∀ s, start l o h image = some s → ∃ d, Session.start l o h image = some d ∧ d.state = s) ∧
    (image.length ≠ l.totalSize → Session.start l o h image = none)

/-- R119, R120, R123: an assembled image has exactly `total_size` Words; pass 1 gives an address to every instruction and every datum of
the program, in the program's order; the Word of each, encoded, is at that address; and every other Word is 0. The Word of a datum
outside `-32768..65535` is the model's choice (notes/assumptions/18.md). -/
def Obligations.AssembledInstructionsAreInTheImage : Prop :=
  ∀ (l : Layout) (o : OpcodeMap) (program : List (Statement Nat)) (image : List Word),
    assemble l o program = .ok image →
      image.length = l.totalSize ∧
      ∃ q, (PassOne.start l).run 0 program = .ok q ∧
        q.placed.map (fun x => (x.line, x.item)) = itemsFrom 0 program ∧
        (∀ x ∈ q.placed,
          (∀ m xs, x.item = .instr m xs →
            ∃ i, assembleInstr q.symbols m xs = .ok i ∧ image[x.address]? = some (encode o i)) ∧
          (∀ v, x.item = .datum v → image[x.address]? = some (datumWord v))) ∧
        ∀ a, a < l.totalSize → (∀ x ∈ q.placed, x.address ≠ a) → image[a]? = some 0

/-- R121: what pass 1 places lies in the range of the `code` or the `data` section, below every base of another section that is not
below the section's own; and a Word that would go to the end of the range, or to such a base, fails with `SectionOverflowError`,
naming the section. -/
def Obligations.ContentStaysInItsSection : Prop :=
  (∀ (l : Layout) (program : List (Statement Nat)) (q : PassOne Nat), (PassOne.start l).run 0 program = .ok q →
    ∀ x ∈ q.placed, ∃ n base length, (n = SectionName.code ∨ n = SectionName.data) ∧ l.resolve n = some (base, length) ∧
      base ≤ x.address ∧ x.address < base + length ∧
      ∀ y ∈ l.sections.eraseP (fun y => y.name == n), base ≤ y.base → x.address < y.base) ∧
  (∀ (l : Layout) (p : PassOne Nat) (sec : DirectiveSection) (base length line : Nat) (item : Item Nat),
    p.active = some sec → l.resolve sec.name = some (base, length) →
    (p.cursor sec).limit = (sectionCursor l sec.name).limit → base ≤ (p.cursor sec).next →
    (base + length ≤ (p.cursor sec).next ∨
      ∃ y ∈ l.sections.eraseP (fun y => y.name == sec.name), y.base = (p.cursor sec).next) →
    p.place line item = .error (.sectionOverflow sec.name))

/-- An image stored as bytes reads back in the same byte order (R63). -/
def Obligations.ImageBytesRoundTrip : Prop :=
  ∀ (o : ByteOrder) (image : List Word), imageOfBytes o (bytesOfImage o image) = some image
end

