-- ==== Sys2Proof/Laws/Alu.lean ====
section
/-!
SUPPORT. Laws of Operands: the operand forms and the arithmetic unit as the bit-vector operations of the library.
-/
namespace Sys2Proof.Machine

theorem sext16_toInt (imm : Imm8) : (sext16 imm).toInt = imm.toInt := by
  simp [sext16, BitVec.toInt_signExtend_of_le]

theorem zext16_toNat (addr : Addr) : (zext16 addr).toNat = addr.toNat := by
  simp [zext16, BitVec.toNat_setWidth]; omega

theorem addWord_eq (a b : Word) : addWord a b = a + b := by
  apply BitVec.eq_of_toNat_eq
  simp [addWord, BitVec.toNat_add]

theorem subWord_eq (a b : Word) : subWord a b = a - b := by
  apply BitVec.eq_of_toNat_eq
  have ha := a.isLt
  have hb := b.isLt
  simp only [subWord, BitVec.toNat_ofInt, BitVec.toNat_sub]
  omega

theorem shlWord_of_le {a : Word} (v : Word) (h : a.toNat ≤ 15) : shlWord v a = v <<< a.toNat := by
  apply BitVec.eq_of_toNat_eq
  simp [shlWord, h, Nat.shiftLeft_eq]

theorem shlWord_of_gt {a : Word} (v : Word) (h : 16 ≤ a.toNat) : shlWord v a = Config.shlOver v a := by
  simp [shlWord]; omega

end Sys2Proof.Machine
end

