-- ==== Sys2Proof/Laws/Assembler.lean ====
section
/-!
SUPPORT. Laws of the assembler: where a section may write (R121).
-/
namespace Sys2Proof.Machine

/-- The fold of `sectionLimit`, from any bound `e` not below `base`. -/
theorem foldl_sectionLimit (base : Nat) (xs : List LayoutSection) (e : Nat) (he : base ≤ e) :
    let r := xs.foldl (fun e x => if base ≤ x.base then min e x.base else e) e
    base ≤ r ∧ r ≤ e ∧ (∀ x ∈ xs, base ≤ x.base → r ≤ x.base) ∧ (r = e ∨ ∃ x ∈ xs, x.base = r) := by
  induction xs generalizing e with
  | nil => exact ⟨he, Nat.le_refl e, by simp, .inl rfl⟩
  | cons x rest ih =>
    simp only [List.foldl_cons]
    split
    next hb =>
      obtain ⟨h1, h2, h3, h4⟩ := ih (min e x.base) (by omega)
      refine ⟨h1, by omega, ?_, ?_⟩
      · intro y hy hby
        rcases List.mem_cons.mp hy with rfl | hy
        · omega
        · exact h3 y hy hby
      · rcases h4 with h4 | ⟨y, hy, h4⟩
        · rcases Nat.le_total e x.base with hx | hx
          · exact .inl (h4.trans (Nat.min_eq_left hx))
          · exact .inr ⟨x, by simp, (h4.trans (Nat.min_eq_right hx)).symm⟩
        · exact .inr ⟨y, by simp [hy], h4⟩
    next hb =>
      obtain ⟨h1, h2, h3, h4⟩ := ih e he
      refine ⟨h1, h2, ?_, ?_⟩
      · intro y hy hby
        rcases List.mem_cons.mp hy with rfl | hy
        · exact absurd hby hb
        · exact h3 y hy hby
      · rcases h4 with h4 | ⟨y, hy, h4⟩
        · exact .inl h4
        · exact .inr ⟨y, by simp [hy], h4⟩

/-- Everything that `sectionLimit` answers: an address of the section's range or its end, not beyond another section's base, and one of
the two. -/
theorem sectionLimit_spec (l : Layout) (n : SectionName) (base length : Nat) :
    base ≤ sectionLimit l n base length ∧ sectionLimit l n base length ≤ base + length ∧
      (∀ x ∈ l.sections.eraseP (fun x => x.name == n), base ≤ x.base → sectionLimit l n base length ≤ x.base) ∧
      (sectionLimit l n base length = base + length ∨
        ∃ x ∈ l.sections.eraseP (fun x => x.name == n), x.base = sectionLimit l n base length) :=
  foldl_sectionLimit base _ _ (Nat.le_add_right base length)

end Sys2Proof.Machine
end

