-- ==== Sys2Proof/Laws/Decode.lean ====
section
/-!
SUPPORT. Laws of Decode: the fields of each encoded layout, and that `OPC` and `mn` are inverse.
-/
namespace Sys2Proof

section Fields
variable (op : Opcode) (d a b : Reg) (imm : Imm8) (addr : Addr)

/-- The bits of an immediate-form R-class Word. -/
theorem encodeRImm_bit (i : Nat) : (encodeRImm op d imm).getLsbD i =
    if i < 8 then imm.getLsbD i else if i < 9 then false
    else if i < 12 then d.getLsbD (i - 9) else op.getLsbD (i - 12) := by
  change BitVec.getLsbD (w := 4 + 3 + 1 + 8) (op ++ d ++ 0#1 ++ imm) i = _
  simp only [BitVec.getLsbD_append]
  grind

/-- The bits of a register-form R-class Word. -/
theorem encodeRReg_bit (i : Nat) : (encodeRReg op d a b).getLsbD i =
    if i < 2 then false else if i < 5 then b.getLsbD (i - 2) else if i < 8 then a.getLsbD (i - 5)
    else if i < 9 then true else if i < 12 then d.getLsbD (i - 9) else op.getLsbD (i - 12) := by
  change BitVec.getLsbD (w := 4 + 3 + 1 + 3 + 3 + 2) (op ++ d ++ 1#1 ++ a ++ b ++ 0#2) i = _
  simp only [BitVec.getLsbD_append]
  grind

/-- The bits of an A-class Word. -/
theorem encodeA_bit (i : Nat) : (encodeA op addr).getLsbD i =
    if i < 11 then addr.getLsbD i else if i < 12 then false else op.getLsbD (i - 12) := by
  change BitVec.getLsbD (w := 4 + 1 + 11) (op ++ 0#1 ++ addr) i = _
  simp only [BitVec.getLsbD_append]
  grind

/-- The bits of a Z-class Word. -/
theorem encodeZ_bit (i : Nat) : (encodeZ op).getLsbD i = if i < 12 then false else op.getLsbD (i - 12) := by
  change BitVec.getLsbD (w := 4 + 12) (op ++ 0#12) i = _
  simp only [BitVec.getLsbD_append]
  grind

@[simp] theorem opcodeField_encodeRImm : opcodeField (encodeRImm op d imm) = op := by
  apply BitVec.eq_of_getLsbD_eq
  intro i hi
  simp only [opcodeField, BitVec.getLsbD_extractLsb', encodeRImm_bit]
  grind

@[simp] theorem destField_encodeRImm : destField (encodeRImm op d imm) = d := by
  apply BitVec.eq_of_getLsbD_eq
  intro i hi
  simp only [destField, BitVec.getLsbD_extractLsb', encodeRImm_bit]
  grind

@[simp] theorem modeBit_encodeRImm : modeBit (encodeRImm op d imm) = false := by
  simp only [modeBit, encodeRImm_bit]
  rfl

@[simp] theorem imm8Field_encodeRImm : imm8Field (encodeRImm op d imm) = imm := by
  apply BitVec.eq_of_getLsbD_eq
  intro i hi
  simp only [imm8Field, BitVec.getLsbD_extractLsb', encodeRImm_bit]
  grind

@[simp] theorem opcodeField_encodeRReg : opcodeField (encodeRReg op d a b) = op := by
  apply BitVec.eq_of_getLsbD_eq
  intro i hi
  simp only [opcodeField, BitVec.getLsbD_extractLsb', encodeRReg_bit]
  grind

@[simp] theorem destField_encodeRReg : destField (encodeRReg op d a b) = d := by
  apply BitVec.eq_of_getLsbD_eq
  intro i hi
  simp only [destField, BitVec.getLsbD_extractLsb', encodeRReg_bit]
  grind

@[simp] theorem modeBit_encodeRReg : modeBit (encodeRReg op d a b) = true := by
  simp only [modeBit, encodeRReg_bit]
  rfl

@[simp] theorem src1Field_encodeRReg : src1Field (encodeRReg op d a b) = a := by
  apply BitVec.eq_of_getLsbD_eq
  intro i hi
  simp only [src1Field, BitVec.getLsbD_extractLsb', encodeRReg_bit]
  grind

@[simp] theorem src2Field_encodeRReg : src2Field (encodeRReg op d a b) = b := by
  apply BitVec.eq_of_getLsbD_eq
  intro i hi
  simp only [src2Field, BitVec.getLsbD_extractLsb', encodeRReg_bit]
  grind

@[simp] theorem opcodeField_encodeA : opcodeField (encodeA op addr) = op := by
  apply BitVec.eq_of_getLsbD_eq
  intro i hi
  simp only [opcodeField, BitVec.getLsbD_extractLsb', encodeA_bit]
  grind

@[simp] theorem addressField_encodeA : addressField (encodeA op addr) = addr := by
  apply BitVec.eq_of_getLsbD_eq
  intro i hi
  simp only [addressField, BitVec.getLsbD_extractLsb', encodeA_bit]
  grind

@[simp] theorem opcodeField_encodeZ : opcodeField (encodeZ op) = op := by
  apply BitVec.eq_of_getLsbD_eq
  intro i hi
  simp only [opcodeField, BitVec.getLsbD_extractLsb', encodeZ_bit]
  grind

end Fields

theorem Mnemonic.mem_all (m : Mnemonic) : m ∈ Mnemonic.all := by
  cases m <;> decide

/-- A numbering within R8 gives different mnemonics different values. -/
theorem OpcodeMap.code_inj {o : OpcodeMap} (h : o.wf = true) {m n : Mnemonic} (he : o.code m = o.code n) : m = n := by
  simp only [OpcodeMap.wf, Bool.and_eq_true, decide_eq_true_eq] at h
  exact List.inj_on_of_nodup_map h.1 (Mnemonic.mem_all m) (Mnemonic.mem_all n) he

/-- A numbering within R8 uses the values `0..13` only. -/
theorem OpcodeMap.code_le {o : OpcodeMap} (h : o.wf = true) (m : Mnemonic) : o.code m ≤ 13#4 := by
  simp only [OpcodeMap.wf, Bool.and_eq_true, List.all_eq_true, decide_eq_true_eq] at h
  exact h.2 m (Mnemonic.mem_all m)

/-- Everything that `mn(v)` can answer. -/
theorem OpcodeMap.mnemonicOf_eq_some {o : OpcodeMap} (h : o.wf = true) {v : Opcode} {m : Mnemonic} :
    o.mnemonicOf v = some m ↔ o.code m = v := by
  unfold OpcodeMap.mnemonicOf
  constructor
  · intro hf
    simpa using List.find?_some hf
  · intro he
    obtain ⟨n, hn⟩ : ∃ n, Mnemonic.all.find? (fun k => o.code k == v) = some n :=
      Option.isSome_iff_exists.mp (List.find?_isSome.mpr ⟨m, Mnemonic.mem_all m, by simp [he]⟩)
    have hv : o.code n = v := by simpa using List.find?_some hn
    rw [hn, OpcodeMap.code_inj h (hv.trans he.symm)]

theorem OpcodeMap.mnemonicOf_eq_none {o : OpcodeMap} {v : Opcode} :
    o.mnemonicOf v = none ↔ ∀ m, o.code m ≠ v := by
  simp only [OpcodeMap.mnemonicOf, List.find?_eq_none, beq_iff_eq]
  exact ⟨fun h m => h m (Mnemonic.mem_all m), fun h m _ => h m⟩

theorem OpcodeMap.names_eq_false {o : OpcodeMap} {v : Opcode} : o.names v = false ↔ o.mnemonicOf v = none := by
  simp [OpcodeMap.names, OpcodeMap.mnemonicOf]

end Sys2Proof
end

