-- ==== Sys2Proof/Laws/Memory.lean ====
section
/-!
SUPPORT. Laws of Memory: a read after a write, the canonical form, and that equal reads make equal memories.
-/
namespace Sys2Proof.Machine

/-- `a` is below every listed address. -/
abbrev Memory.above (a : Nat) (m : Memory) : Prop := ∀ e ∈ m, a < e.1

theorem Memory.wf_cons {a : Nat} {x : Word} {rest : Memory} :
    Memory.wf ((a, x) :: rest) = true ↔ x ≠ Memory.unlisted ∧ Memory.above a rest ∧ Memory.wf rest = true := by
  simp [Memory.wf, Memory.above, and_assoc]

/-- Below every listed address, memory reads as unlisted. -/
theorem Memory.read_above {m : Memory} {a : Nat} (h : Memory.above a m) : m.read a = Memory.unlisted := by
  induction m with
  | nil => rfl
  | cons e rest ih =>
    obtain ⟨b, x⟩ := e
    have hb : a < b := h (b, x) (by simp)
    simp only [Memory.read, if_neg (Nat.ne_of_lt hb)]
    exact ih fun e he => h e (by simp [he])

theorem Memory.read_cons_op {a b : Nat} {v : Word} {rest : Memory} (h : Memory.above b rest) :
    (Memory.cons b v rest).read a = if a = b then v else rest.read a := by
  unfold Memory.cons
  split
  next hv =>
    split
    next hab => rw [hab, hv, Memory.read_above h]
    next => rfl
  next => rfl

/-- What a write does to every read: the written address reads the new Word, every other address its old one (R55). -/
theorem Memory.read_write {m : Memory} (h : m.wf = true) (a b : Nat) (v : Word) :
    (m.write a v).read b = if b = a then v else m.read b := by
  induction m with
  | nil => exact Memory.read_cons_op (by simp [Memory.above])
  | cons e rest ih =>
    obtain ⟨c, x⟩ := e
    obtain ⟨-, habove, hrest⟩ := Memory.wf_cons.mp h
    unfold Memory.write
    split
    next hac =>
      rw [Memory.read_cons_op]
      intro e he
      rcases List.mem_cons.mp he with rfl | he
      · exact hac
      · exact Nat.lt_trans hac (habove e he)
    next =>
      split
      next hac =>
        subst hac
        rw [Memory.read_cons_op habove]
        simp only [Memory.read]
        split <;> simp_all
      next =>
        simp only [Memory.read]
        rw [ih hrest]
        split <;> split <;> simp_all

theorem Memory.read_write_same {m : Memory} (h : m.wf = true) (a : Nat) (v : Word) : (m.write a v).read a = v := by
  simp [Memory.read_write h]

theorem Memory.read_write_ne {m : Memory} (h : m.wf = true) {a b : Nat} (v : Word) (hb : b ≠ a) :
    (m.write a v).read b = m.read b := by
  simp [Memory.read_write h, hb]

/-- A listed address of the memory after a write is the written one or was listed before. -/
theorem Memory.mem_write {m : Memory} {a : Nat} {v : Word} {e : Nat × Word} (he : e ∈ m.write a v) :
    e = (a, v) ∨ e ∈ m := by
  induction m with
  | nil =>
    simp only [Memory.write, Memory.cons] at he
    split at he <;> simp_all
  | cons f rest ih =>
    obtain ⟨c, x⟩ := f
    simp only [Memory.write, Memory.cons] at he
    split at he
    · split at he <;> simp_all
    · split at he
      · split at he
        · simp_all
        · rcases List.mem_cons.mp he with he | he <;> simp_all
      · rcases List.mem_cons.mp he with rfl | he
        · simp
        · rcases ih he with h | h <;> simp [h]

theorem Memory.wf_cons_op {a : Nat} {v : Word} {rest : Memory} (h : Memory.above a rest) (hr : rest.wf = true) :
    (Memory.cons a v rest).wf = true := by
  unfold Memory.cons
  split
  next => exact hr
  next hv => exact Memory.wf_cons.mpr ⟨hv, h, hr⟩

/-- A write keeps the canonical form. -/
theorem Memory.wf_write {m : Memory} (h : m.wf = true) (a : Nat) (v : Word) : (m.write a v).wf = true := by
  induction m with
  | nil => exact Memory.wf_cons_op (by simp [Memory.above]) rfl
  | cons e rest ih =>
    obtain ⟨c, x⟩ := e
    obtain ⟨hx, habove, hrest⟩ := Memory.wf_cons.mp h
    unfold Memory.write
    split
    next hac =>
      refine Memory.wf_cons_op (fun e he => ?_) h
      rcases List.mem_cons.mp he with rfl | he
      · exact hac
      · exact Nat.lt_trans hac (habove e he)
    next =>
      split
      next hac => exact Memory.wf_cons_op (hac ▸ habove) hrest
      next =>
        refine Memory.wf_cons.mpr ⟨hx, fun e he => ?_, ih hrest⟩
        rcases Memory.mem_write he with rfl | he
        · simp only; omega
        · exact habove e he

/-- A write below `n` leaves every listed address below `n`. -/
theorem Memory.below_write {m : Memory} {n a : Nat} (h : m.below n = true) (ha : a < n) (v : Word) :
    (m.write a v).below n = true := by
  simp only [Memory.below, List.all_eq_true, decide_eq_true_eq] at h ⊢
  intro e he
  rcases Memory.mem_write he with rfl | he
  · exact ha
  · exact h e he

/-- Two memories in canonical form that read the same everywhere are equal. -/
theorem Memory.ext_read {m n : Memory} (hm : m.wf = true) (hn : n.wf = true) (h : ∀ a, m.read a = n.read a) : m = n := by
  induction m generalizing n with
  | nil =>
    cases n with
    | nil => rfl
    | cons e rest =>
      obtain ⟨a, x⟩ := e
      obtain ⟨hx, -, -⟩ := Memory.wf_cons.mp hn
      have := h a
      simp only [Memory.read] at this
      simp_all
  | cons e rest ih =>
    obtain ⟨a, x⟩ := e
    obtain ⟨hx, ha, hr⟩ := Memory.wf_cons.mp hm
    cases n with
    | nil =>
      have := h a
      simp only [Memory.read] at this
      simp_all
    | cons f rest' =>
      obtain ⟨b, y⟩ := f
      obtain ⟨hy, hb, hr'⟩ := Memory.wf_cons.mp hn
      have hab : a = b := by
        rcases Nat.lt_trichotomy a b with hlt | heq | hgt
        · have e := h a
          have : Memory.above a ((b, y) :: rest') := fun e he => by
            rcases List.mem_cons.mp he with rfl | he
            · exact hlt
            · exact Nat.lt_trans hlt (hb e he)
          rw [Memory.read_above this] at e
          simp only [Memory.read] at e
          simp_all
        · exact heq
        · have e := h b
          have : Memory.above b ((a, x) :: rest) := fun e he => by
            rcases List.mem_cons.mp he with rfl | he
            · exact hgt
            · exact Nat.lt_trans hgt (ha e he)
          rw [Memory.read_above this] at e
          simp only [Memory.read] at e
          simp_all
      subst hab
      have hxy : x = y := by simpa [Memory.read] using h a
      subst hxy
      have : rest = rest' := ih hr hr' fun c => by
        by_cases hc : c = a
        · subst hc
          rw [Memory.read_above ha, Memory.read_above hb]
        · simpa [Memory.read, hc] using h c
      rw [this]

theorem Memory.above_ofWords {a b : Nat} (image : List Word) (h : a < b) : Memory.above a (Memory.ofWords b image) := by
  induction image generalizing b with
  | nil => simp [Memory.ofWords, Memory.above]
  | cons w rest ih =>
    intro e he
    simp only [Memory.ofWords, Memory.cons] at he
    split at he
    · exact ih (Nat.lt_succ_of_lt h) e he
    · rcases List.mem_cons.mp he with rfl | he
      · exact h
      · exact ih (Nat.lt_succ_of_lt h) e he

/-- The memory of an image has the canonical form. -/
theorem Memory.wf_ofWords (a : Nat) (image : List Word) : (Memory.ofWords a image).wf = true := by
  induction image generalizing a with
  | nil => rfl
  | cons w rest ih => exact Memory.wf_cons_op (Memory.above_ofWords rest (Nat.lt_succ_self a)) (ih (a + 1))

/-- The memory of an image reads as the image, and as 0 beyond it (R45, R282). -/
theorem Memory.read_ofWords (a i : Nat) (image : List Word) :
    (Memory.ofWords a image).read (a + i) = image.getD i 0 := by
  induction image generalizing a i with
  | nil => simp [Memory.ofWords, Memory.read]
  | cons w rest ih =>
    simp only [Memory.ofWords]
    rw [Memory.read_cons_op (Memory.above_ofWords rest (Nat.lt_succ_self a))]
    cases i with
    | zero => simp
    | succ i =>
      have : a + (i + 1) = a + 1 + i := by omega
      rw [this, ih (a + 1) i, if_neg (by omega)]
      simp

/-- The memory of an image lists no address beyond it. -/
theorem Memory.below_ofWords (a : Nat) (image : List Word) :
    (Memory.ofWords a image).below (a + image.length) = true := by
  simp only [Memory.below, List.all_eq_true, decide_eq_true_eq]
  induction image generalizing a with
  | nil => simp [Memory.ofWords]
  | cons w rest ih =>
    intro e he
    simp only [Memory.ofWords, Memory.cons] at he
    have hlen : (w :: rest).length = rest.length + 1 := rfl
    split at he
    · have := ih (a + 1) e he; omega
    · rcases List.mem_cons.mp he with rfl | he
      · simp
      · have := ih (a + 1) e he; omega

end Sys2Proof.Machine
end

