-- ==== Sys2Proof/Laws/State.lean ====
section
/-!
SUPPORT. Laws of State: what each update of the state leaves in each field, so that no later proof unfolds an update.
-/
namespace Sys2Proof.Machine

section
variable (s : State) (r : Reg) (v : Word)

@[simp] theorem State.setReg_regs : (s.setReg r v).regs = s.regs.set r.toNat v r.isLt := rfl
@[simp] theorem State.setReg_pc : (s.setReg r v).pc = s.pc := rfl
@[simp] theorem State.setReg_flag : (s.setReg r v).flag = s.flag := rfl
@[simp] theorem State.setReg_halted : (s.setReg r v).halted = s.halted := rfl
@[simp] theorem State.setReg_fault : (s.setReg r v).fault = s.fault := rfl
@[simp] theorem State.setReg_mem : (s.setReg r v).mem = s.mem := rfl
@[simp] theorem State.setReg_cfg : (s.setReg r v).cfg = s.cfg := rfl

end

section
variable (s : State) (b : Bool)

@[simp] theorem State.setFlag_regs : (s.setFlag b).regs = s.regs := rfl
@[simp] theorem State.setFlag_pc : (s.setFlag b).pc = s.pc := rfl
@[simp] theorem State.setFlag_flag : (s.setFlag b).flag = b := rfl
@[simp] theorem State.setFlag_halted : (s.setFlag b).halted = s.halted := rfl
@[simp] theorem State.setFlag_fault : (s.setFlag b).fault = s.fault := rfl
@[simp] theorem State.setFlag_mem : (s.setFlag b).mem = s.mem := rfl
@[simp] theorem State.setFlag_cfg : (s.setFlag b).cfg = s.cfg := rfl

end

section
variable (s : State)

@[simp] theorem State.advance_regs : s.advance.regs = s.regs := rfl
@[simp] theorem State.advance_pc : s.advance.pc = s.pc + 1 := rfl
@[simp] theorem State.advance_flag : s.advance.flag = s.flag := rfl
@[simp] theorem State.advance_halted : s.advance.halted = s.halted := rfl
@[simp] theorem State.advance_fault : s.advance.fault = s.fault := rfl
@[simp] theorem State.advance_mem : s.advance.mem = s.mem := rfl
@[simp] theorem State.advance_cfg : s.advance.cfg = s.cfg := rfl

end

section
variable (s : State) (a : Addr)

@[simp] theorem State.jump_regs : (s.jump a).regs = s.regs := rfl
@[simp] theorem State.jump_pc : (s.jump a).pc = fieldAddress a := rfl
@[simp] theorem State.jump_flag : (s.jump a).flag = s.flag := rfl
@[simp] theorem State.jump_halted : (s.jump a).halted = s.halted := rfl
@[simp] theorem State.jump_fault : (s.jump a).fault = s.fault := rfl
@[simp] theorem State.jump_mem : (s.jump a).mem = s.mem := rfl
@[simp] theorem State.jump_cfg : (s.jump a).cfg = s.cfg := rfl

end

section
variable (s : State)

@[simp] theorem State.halt_regs : s.halt.regs = s.regs := rfl
@[simp] theorem State.halt_pc : s.halt.pc = if s.cfg.haltAdvancesPc then s.pc + 1 else s.pc := rfl
@[simp] theorem State.halt_flag : s.halt.flag = s.flag := rfl
@[simp] theorem State.halt_halted : s.halt.halted = true := rfl
@[simp] theorem State.halt_fault : s.halt.fault = s.fault := rfl
@[simp] theorem State.halt_mem : s.halt.mem = s.mem := rfl
@[simp] theorem State.halt_cfg : s.halt.cfg = s.cfg := rfl

end

section
variable (s : State) (f : FaultRecord)

@[simp] theorem State.raise_regs : (s.raise f).regs = s.regs := rfl
@[simp] theorem State.raise_pc : (s.raise f).pc = s.pc := rfl
@[simp] theorem State.raise_flag : (s.raise f).flag = s.flag := rfl
@[simp] theorem State.raise_halted : (s.raise f).halted = true := rfl
@[simp] theorem State.raise_fault : (s.raise f).fault = some f := rfl
@[simp] theorem State.raise_mem : (s.raise f).mem = s.mem := rfl
@[simp] theorem State.raise_cfg : (s.raise f).cfg = s.cfg := rfl

end

section
variable (s : State) (n w : Nat)

@[simp] theorem State.withFetchWord_regs : (s.withFetchWord n w).regs = s.regs := rfl
@[simp] theorem State.withFetchWord_pc : (s.withFetchWord n w).pc = s.pc := rfl
@[simp] theorem State.withFetchWord_flag : (s.withFetchWord n w).flag = s.flag := rfl
@[simp] theorem State.withFetchWord_halted : (s.withFetchWord n w).halted = s.halted := rfl
@[simp] theorem State.withFetchWord_fault : (s.withFetchWord n w).fault = s.fault := rfl
@[simp] theorem State.withFetchWord_mem : (s.withFetchWord n w).mem = s.mem.write s.pc (BitVec.ofNat 16 (w % 2 ^ n)) := rfl
@[simp] theorem State.withFetchWord_cfg : (s.withFetchWord n w).cfg = s.cfg := rfl

end

section
variable (s : State) (image : List Word)

@[simp] theorem State.applyReset_regs : (s.applyReset image).regs = Vector.replicate 8 0 := rfl
@[simp] theorem State.applyReset_pc : (s.applyReset image).pc = s.cfg.codeBase := rfl
@[simp] theorem State.applyReset_flag : (s.applyReset image).flag = false := rfl
@[simp] theorem State.applyReset_halted : (s.applyReset image).halted = false := rfl
@[simp] theorem State.applyReset_fault : (s.applyReset image).fault = none := rfl
@[simp] theorem State.applyReset_mem : (s.applyReset image).mem = Memory.ofWords 0 image := rfl
@[simp] theorem State.applyReset_cfg : (s.applyReset image).cfg = s.cfg := rfl

end

section
variable (s : State) (b : Bool) (a : Addr)

@[simp] theorem State.branch_regs : (s.branch b a).regs = s.regs := rfl
@[simp] theorem State.branch_pc : (s.branch b a).pc = if b then fieldAddress a else s.pc + 1 := rfl
@[simp] theorem State.branch_flag : (s.branch b a).flag = s.flag := rfl
@[simp] theorem State.branch_halted : (s.branch b a).halted = s.halted := rfl
@[simp] theorem State.branch_fault : (s.branch b a).fault = s.fault := rfl
@[simp] theorem State.branch_mem : (s.branch b a).mem = s.mem := rfl
@[simp] theorem State.branch_cfg : (s.branch b a).cfg = s.cfg := rfl

end

section
variable (s : State)

/-- A register read after a register write: the value at the written index, the old value elsewhere (R23). -/
theorem State.setReg_reg (d r : Reg) (v : Word) : (s.setReg d v).reg r = if r = d then v else s.reg r := by
  simp only [State.reg, State.setReg, Vector.getElem_set, BitVec.toNat_eq]
  grind

@[simp] theorem State.setReg_reg_same (d : Reg) (v : Word) : (s.setReg d v).reg d = v := by
  simp [State.setReg_reg]

theorem State.setReg_reg_ne {d r : Reg} (v : Word) (h : r ≠ d) : (s.setReg d v).reg r = s.reg r := by
  simp [State.setReg_reg, h]

/-- A register reads the same in two states with the same register file. -/
theorem State.reg_congr {s t : State} (h : s.regs = t.regs) (r : Reg) : s.reg r = t.reg r := by
  simp only [State.reg, h]

@[simp] theorem State.setFlag_reg (b : Bool) (r : Reg) : (s.setFlag b).reg r = s.reg r := rfl
@[simp] theorem State.advance_reg (r : Reg) : s.advance.reg r = s.reg r := rfl
@[simp] theorem State.jump_reg (a : Addr) (r : Reg) : (s.jump a).reg r = s.reg r := rfl
@[simp] theorem State.branch_reg (b : Bool) (a : Addr) (r : Reg) : (s.branch b a).reg r = s.reg r := rfl
@[simp] theorem State.halt_reg (r : Reg) : s.halt.reg r = s.reg r := rfl
@[simp] theorem State.raise_reg (f : FaultRecord) (r : Reg) : (s.raise f).reg r = s.reg r := rfl
@[simp] theorem State.withFetchWord_reg (n w : Nat) (r : Reg) : (s.withFetchWord n w).reg r = s.reg r := rfl

/-- Every register reads 0 after reset, whatever the parameters and the image (R45). -/
@[simp] theorem State.resetTo_reg (c : Config) (image : List Word) (r : Reg) : (State.resetTo c image).reg r = 0 := by
  simp [State.reg, State.resetTo]

/-- Two states agree if every field does, the registers read one by one. -/
theorem State.ext_reg {s t : State} (hr : ∀ r, s.reg r = t.reg r) (hp : s.pc = t.pc) (hg : s.flag = t.flag)
    (hh : s.halted = t.halted) (hf : s.fault = t.fault) (hm : s.mem = t.mem) (hc : s.cfg = t.cfg) : s = t := by
  have hregs : s.regs = t.regs := by
    apply Vector.ext
    intro i hi
    have h := hr (BitVec.ofNat 3 i)
    have e : (BitVec.ofNat 3 i).toNat = i := by simp [BitVec.toNat_ofNat]; omega
    simpa only [State.reg, e] using h
  cases s; cases t; simp_all

end

end Sys2Proof.Machine
end

