-- ==== Sys2Proof/Laws/Ops.lean ====
section
/-!
SUPPORT. Laws of Ops: for each shared operation, one lemma that says everything it can do.
-/
namespace Sys2Proof.Machine

/-- `MemRead(a)` (R54). -/
theorem State.memRead_of_lt {s : State} {a : Nat} (h : a < s.cfg.memSize) : s.memRead a = .ok (s.mem.read a) := by
  simp [State.memRead, h]

theorem State.memRead_of_le {s : State} {a : Nat} (h : s.cfg.memSize ≤ a) :
    s.memRead a = .error (.memoryFault s.pc a) := by
  simp [State.memRead, Nat.not_lt.mpr h]

theorem State.memRead_cases (s : State) (a : Nat) :
    (a < s.cfg.memSize ∧ s.memRead a = .ok (s.mem.read a)) ∨
      (s.cfg.memSize ≤ a ∧ s.memRead a = .error (.memoryFault s.pc a)) := by
  rcases Nat.lt_or_ge a s.cfg.memSize with h | h
  · exact .inl ⟨h, s.memRead_of_lt h⟩
  · exact .inr ⟨h, s.memRead_of_le h⟩

/-- `MemWrite(a, v)` (R55). -/
theorem State.memWrite_of_lt {s : State} {a : Nat} (v : Word) (h : a < s.cfg.memSize) :
    s.memWrite a v = .ok { s with mem := s.mem.write a v } := by
  simp [State.memWrite, h]

theorem State.memWrite_of_le {s : State} {a : Nat} (v : Word) (h : s.cfg.memSize ≤ a) :
    s.memWrite a v = .error (.memoryFault s.pc a) := by
  simp [State.memWrite, Nat.not_lt.mpr h]

theorem State.memWrite_cases (s : State) (a : Nat) (v : Word) :
    (a < s.cfg.memSize ∧ s.memWrite a v = .ok { s with mem := s.mem.write a v }) ∨
      (s.cfg.memSize ≤ a ∧ s.memWrite a v = .error (.memoryFault s.pc a)) := by
  rcases Nat.lt_or_ge a s.cfg.memSize with h | h
  · exact .inl ⟨h, s.memWrite_of_lt v h⟩
  · exact .inr ⟨h, s.memWrite_of_le v h⟩

@[simp] theorem State.complete_ok (s t : State) : s.complete (.ok t) = .next t := rfl
@[simp] theorem State.complete_error (s : State) (f : FaultRecord) : s.complete (.error f) = .next (s.raise f) := rfl

/-- What the end of an instruction can be: the state it reached, or its fault taken in the state it began in (R236). -/
theorem State.complete_next {s t : State} {r : Except FaultRecord State} :
    s.complete r = .next t ↔ r = .ok t ∨ ∃ f, r = .error f ∧ t = s.raise f := by
  cases r with
  | ok u => simp
  | error f => simp [eq_comm]

theorem State.fetch_of_lt {s : State} (h : s.pc < s.cfg.memSize) : s.fetch = .ok (s.mem.read s.pc) :=
  s.memRead_of_lt h

theorem State.fetch_of_le {s : State} (h : s.cfg.memSize ≤ s.pc) : s.fetch = .error (.memoryFault s.pc s.pc) :=
  s.memRead_of_le h

/-- Everything a step can do when it has a next state: the fetch faults, or the decoded instruction executes (R131). -/
theorem step_next {s t : State} (h : step s = .next t) :
    s.halted = false ∧
      ((s.cfg.memSize ≤ s.pc ∧ t = s.raise (.memoryFault s.pc s.pc)) ∨
        (s.pc < s.cfg.memSize ∧ exec (decode s.cfg.opc (s.mem.read s.pc)) s = .next t)) := by
  unfold step at h
  split at h
  next => simp at h
  next hh =>
    refine ⟨by simpa using hh, ?_⟩
    rcases Nat.lt_or_ge s.pc s.cfg.memSize with hp | hp
    · rw [State.fetch_of_lt hp] at h
      exact .inr ⟨hp, h⟩
    · rw [State.fetch_of_le hp] at h
      exact .inl ⟨hp, by simpa [eq_comm] using h⟩

end Sys2Proof.Machine
end

