-- ==== Sys2Proof/Laws/Exec.lean ====
section
/-!
SUPPORT. Laws of exec: the meanings that access memory, as plain updates of the state on each side of the bound (R54, R55),
and `exec_effect`, which says once everything that an instruction can do. Every other arm of `exec` unfolds to its update by
`rfl`.
-/
namespace Sys2Proof.Machine

section
variable {s : State} {d s1 : Reg} {addr : Addr}

theorem exec_ldr_of_lt (h : wordAddress (s.reg s1) < s.cfg.memSize) :
    exec (.ldr d s1) s = .next (s.setReg d (s.mem.read (wordAddress (s.reg s1)))).advance := by
  show s.complete _ = _
  rw [State.memRead_of_lt h]
  rfl

theorem exec_ldr_of_le (h : s.cfg.memSize ≤ wordAddress (s.reg s1)) :
    exec (.ldr d s1) s = .next (s.raise (.memoryFault s.pc (wordAddress (s.reg s1)))) := by
  show s.complete _ = _
  rw [State.memRead_of_le h]
  rfl

theorem exec_load_of_lt (h : fieldAddress addr < s.cfg.memSize) :
    exec (.load addr) s = .next (s.setReg mbr (s.mem.read (fieldAddress addr))).advance := by
  show s.complete _ = _
  rw [State.memRead_of_lt h]
  rfl

theorem exec_load_of_le (h : s.cfg.memSize ≤ fieldAddress addr) :
    exec (.load addr) s = .next (s.raise (.memoryFault s.pc (fieldAddress addr))) := by
  show s.complete _ = _
  rw [State.memRead_of_le h]
  rfl

theorem exec_str_of_lt (h : fieldAddress addr < s.cfg.memSize) :
    exec (.str addr) s = .next { s with mem := s.mem.write (fieldAddress addr) (s.reg mbr), pc := s.pc + 1 } := by
  show s.complete _ = _
  rw [State.memWrite_of_lt _ h]
  rfl

theorem exec_str_of_le (h : s.cfg.memSize ≤ fieldAddress addr) :
    exec (.str addr) s = .next (s.raise (.memoryFault s.pc (fieldAddress addr))) := by
  show s.complete _ = _
  rw [State.memWrite_of_le _ h]
  rfl

end

/-- The updates that an instruction can make, with the instructions that make each. -/
inductive Effect (s : State) (i : Instr) : State → Prop where
  | write (d : Reg) (v : Word) (h : i.mnemonic ∈ [Mnemonic.mov, .add, .sub, .shl, .ldr, .lda, .load].map some) :
    Effect s i (s.setReg d v).advance
  | flag (b : Bool) (h : i.mnemonic = some .cmp) : Effect s i (s.setFlag b).advance
  | store (addr : Addr) (h : i = .str addr) (hlt : fieldAddress addr < s.cfg.memSize) :
    Effect s i { s with mem := s.mem.write (fieldAddress addr) (s.reg mbr), pc := s.pc + 1 }
  | jump (addr : Addr) (h : i = .jmp addr) : Effect s i (s.jump addr)
  | branch (addr : Addr) (taken : Bool) (h : i = .beq addr ∨ i = .bne addr) : Effect s i (s.branch taken addr)
  | halt (h : i = .halt) : Effect s i s.halt
  | illegal (w : Word) (h : i.illegalWord = some w) : Effect s i (s.raise (.illegalInstruction s.pc w))
  | memory (a : Nat) (h : dataAddress s i = some a) (hle : s.cfg.memSize ≤ a) :
    Effect s i (s.raise (.memoryFault s.pc a))

/-- Everything that `exec` can do: it always answers a next state, by one of the updates of `Effect`. -/
theorem exec_effect (i : Instr) (s : State) : ∃ t, exec i s = .next t ∧ Effect s i t := by
  cases i with
  | ldr d a =>
    rcases Nat.lt_or_ge (wordAddress (s.reg a)) s.cfg.memSize with h | h
    · exact ⟨_, exec_ldr_of_lt h, .write _ _ (by simp [Instr.mnemonic])⟩
    · exact ⟨_, exec_ldr_of_le h, .memory _ rfl h⟩
  | load addr =>
    rcases Nat.lt_or_ge (fieldAddress addr) s.cfg.memSize with h | h
    · exact ⟨_, exec_load_of_lt h, .write _ _ (by simp [Instr.mnemonic])⟩
    · exact ⟨_, exec_load_of_le h, .memory _ rfl h⟩
  | str addr =>
    rcases Nat.lt_or_ge (fieldAddress addr) s.cfg.memSize with h | h
    · exact ⟨_, exec_str_of_lt h, .store _ rfl h⟩
    · exact ⟨_, exec_str_of_le h, .memory _ rfl h⟩
  | jmp addr => exact ⟨_, rfl, .jump addr rfl⟩
  | beq addr => exact ⟨_, rfl, .branch addr _ (.inl rfl)⟩
  | bne addr => exact ⟨_, rfl, .branch addr _ (.inr rfl)⟩
  | halt => exact ⟨_, rfl, .halt rfl⟩
  | cmpImm _ _ => exact ⟨_, rfl, .flag _ rfl⟩
  | cmpReg _ _ => exact ⟨_, rfl, .flag _ rfl⟩
  | ldrNoImm _ => exact ⟨_, rfl, .illegal _ rfl⟩
  | opcodeUnnamed _ => exact ⟨_, rfl, .illegal _ rfl⟩
  | opcodeReserved _ => exact ⟨_, rfl, .illegal _ rfl⟩
  | _ => exact ⟨_, rfl, .write _ _ (by simp [Instr.mnemonic])⟩

/-- `exec_effect`, for a next state at hand. -/
theorem effect_of_exec {i : Instr} {s t : State} (h : exec i s = .next t) : Effect s i t := by
  obtain ⟨u, hu, he⟩ := exec_effect i s
  rw [hu] at h
  cases h
  exact he

end Sys2Proof.Machine
end

