-- ==== Sys2Proof/Laws/PerInstr.lean ====
section
/-!
SUPPORT. Laws by instruction: the opcode value of an encoded instruction names the instruction's mnemonic (R87, R102).
-/
namespace Sys2Proof.Laws.EncodedMnemonic

/-- The opcode field of the Word of a well-formed `i` is that of `i`'s mnemonic, and of no mnemonic where `i` has none. -/
def Statement (i : Instr) : Prop :=
  ∀ o : OpcodeMap, o.wf = true → i.wf o = true → o.mnemonicOf (opcodeField (encode o i)) = i.mnemonic

theorem of_code {o : OpcodeMap} (h : o.wf = true) (m : Mnemonic) : o.mnemonicOf (o.code m) = some m :=
  (OpcodeMap.mnemonicOf_eq_some h).mpr rfl

/-- A Word with `m`'s opcode value names `m`. -/
theorem of_field {o : OpcodeMap} (h : o.wf = true) (m : Mnemonic) {w : Word} (hw : opcodeField w = o.code m) :
    o.mnemonicOf (opcodeField w) = some m := by rw [hw, of_code h m]

theorem movImm (d : Reg) (imm : Imm8) : Statement (.movImm d imm) :=
  fun _ h _ => of_field h .mov (opcodeField_encodeRImm _ d imm)

theorem movReg (d s1 : Reg) : Statement (.movReg d s1) :=
  fun _ h _ => of_field h .mov (opcodeField_encodeRReg _ d s1 0)

theorem cmpImm (d : Reg) (imm : Imm8) : Statement (.cmpImm d imm) :=
  fun _ h _ => of_field h .cmp (opcodeField_encodeRImm _ d imm)

theorem cmpReg (d s1 : Reg) : Statement (.cmpReg d s1) :=
  fun _ h _ => of_field h .cmp (opcodeField_encodeRReg _ d s1 0)

theorem addImm (d : Reg) (imm : Imm8) : Statement (.addImm d imm) :=
  fun _ h _ => of_field h .add (opcodeField_encodeRImm _ d imm)

theorem addReg (d s1 s2 : Reg) : Statement (.addReg d s1 s2) :=
  fun _ h _ => of_field h .add (opcodeField_encodeRReg _ d s1 s2)

theorem subImm (d : Reg) (imm : Imm8) : Statement (.subImm d imm) :=
  fun _ h _ => of_field h .sub (opcodeField_encodeRImm _ d imm)

theorem subReg (d s1 s2 : Reg) : Statement (.subReg d s1 s2) :=
  fun _ h _ => of_field h .sub (opcodeField_encodeRReg _ d s1 s2)

theorem shlImm (d : Reg) (imm : Imm8) : Statement (.shlImm d imm) :=
  fun _ h _ => of_field h .shl (opcodeField_encodeRImm _ d imm)

theorem shlReg (d s1 s2 : Reg) : Statement (.shlReg d s1 s2) :=
  fun _ h _ => of_field h .shl (opcodeField_encodeRReg _ d s1 s2)

theorem ldr (d s1 : Reg) : Statement (.ldr d s1) :=
  fun _ h _ => of_field h .ldr (opcodeField_encodeRReg _ d s1 0)

theorem lda (addr : Addr) : Statement (.lda addr) :=
  fun _ h _ => of_field h .lda (opcodeField_encodeA _ addr)

theorem load (addr : Addr) : Statement (.load addr) :=
  fun _ h _ => of_field h .load (opcodeField_encodeA _ addr)

theorem str (addr : Addr) : Statement (.str addr) :=
  fun _ h _ => of_field h .str (opcodeField_encodeA _ addr)

theorem jmp (addr : Addr) : Statement (.jmp addr) :=
  fun _ h _ => of_field h .jmp (opcodeField_encodeA _ addr)

theorem beq (addr : Addr) : Statement (.beq addr) :=
  fun _ h _ => of_field h .beq (opcodeField_encodeA _ addr)

theorem bne (addr : Addr) : Statement (.bne addr) :=
  fun _ h _ => of_field h .bne (opcodeField_encodeA _ addr)

theorem halt : Statement .halt :=
  fun _ h _ => of_field h .halt (opcodeField_encodeZ _)

theorem ldrNoImm (raw : Word) : Statement (.ldrNoImm raw) := fun o h hw => by
  simp only [Instr.wf, Bool.and_eq_true, beq_iff_eq] at hw
  exact of_field h .ldr hw.1

theorem opcodeUnnamed (raw : Word) : Statement (.opcodeUnnamed raw) := fun o _ hw => by
  simp only [Instr.wf, Bool.and_eq_true, Bool.not_eq_true'] at hw
  exact OpcodeMap.names_eq_false.mp hw.2

theorem opcodeReserved (raw : Word) : Statement (.opcodeReserved raw) := fun o h hw => by
  simp only [Instr.wf, decide_eq_true_eq] at hw
  refine OpcodeMap.mnemonicOf_eq_none.mpr fun m he => ?_
  have h1 := OpcodeMap.code_le h m
  rw [he] at h1
  have h2 : (14#4).toNat ≤ (13#4).toNat := Nat.le_trans hw h1
  simp at h2

end Sys2Proof.Laws.EncodedMnemonic
end

