-- ==== Sys2Proof/Laws/Run.lean ====
section
/-!
SUPPORT. Laws of Run: one step of a run, and the states where it stays.
-/
namespace Sys2Proof.Machine

@[simp] theorem runFor_zero (s : State) : runFor 0 s = s := rfl

theorem runFor_next {s t : State} (h : step s = .next t) (n : Nat) : runFor (n + 1) s = runFor n t := by
  simp only [runFor, h, nextState]

theorem runFor_of_halted {s : State} (h : s.halted = true) (n : Nat) : runFor n s = s := by
  cases n <;> simp [runFor, step, h, nextState]

end Sys2Proof.Machine
end

