-- ==== Sys2Proof/Tests/Slice0.lean ====
section
/-!
SUPPORT. Tests. Words and results are those of spec/95_test_vectors.md unless a comment names another source; that file
derives its vectors from the spec's rules. The witnesses show for each statement with hypotheses a state that meets all of them.
-/
namespace Sys2Proof.Tests
open Sys2Proof.Machine Sys2Proof.Claims

/-! WellFormed: each check refuses an ill-formed term. -/

/-- The raw Word is one of `LDR` with `mode = 1`, a legal Word. -/
theorem test_wf_refuses_ldrNoImm_mode_one : (Instr.ldrNoImm 0x5100).wf OpcodeMap.listing = false := by decide

/-- The raw Word has another opcode than `LDR`'s. -/
theorem test_wf_refuses_ldrNoImm_opcode : (Instr.ldrNoImm 0x4000).wf OpcodeMap.listing = false := by decide

/-- A mnemonic has opcode value 12. -/
theorem test_wf_refuses_opcodeUnnamed_named : (Instr.opcodeUnnamed 0xC000).wf OpcodeMap.listing = false := by decide

/-- Opcode value 14 belongs to the other row. -/
theorem test_wf_refuses_opcodeUnnamed_reserved : (Instr.opcodeUnnamed 0xE000).wf OpcodeMap.listing = false := by decide

theorem test_wf_refuses_opcodeReserved : (Instr.opcodeReserved 0xD000).wf OpcodeMap.listing = false := by decide

/-- `OPC` is injective (R8). -/
theorem test_wf_refuses_shared_opcode : { OpcodeMap.listing with halt := 0 }.wf = false := by decide

/-- `OPC` maps to `0..13` (R8). -/
theorem test_wf_refuses_opcode_14 : { OpcodeMap.listing with halt := 14 }.wf = false := by decide

theorem test_wf_refuses_empty_memory : { Config.default with memSize := 0 }.wf = false := by decide
theorem test_wf_refuses_large_memory : { Config.default with memSize := 2049 }.wf = false := by decide
theorem test_wf_refuses_code_base : { Config.default with memSize := 16, codeBase := 16 }.wf = false := by decide
theorem test_wf_default : Config.default.wf = true := by decide

/-! Decode: every constructor, from a Word written out by the layouts of R92. -/

/-- The decoder under the default numbering. -/
abbrev dec (w : Word) : Instr := decode OpcodeMap.listing w

theorem test_decode_movImm : dec 0b0000_001_0_10000000 = .movImm 1 0x80 := by decide
theorem test_decode_movReg : dec 0b0000_010_1_111_000_00 = .movReg 2 7 := by decide
theorem test_decode_cmpImm : dec 0b0001_001_0_00000101 = .cmpImm 1 5 := by decide
theorem test_decode_cmpReg : dec 0b0001_001_1_010_000_11 = .cmpReg 1 2 := by decide
theorem test_decode_addImm : dec 0b0010_001_0_11001000 = .addImm 1 0xC8 := by decide
theorem test_decode_addReg : dec 0b0010_011_1_011_100_00 = .addReg 3 3 4 := by decide
theorem test_decode_subImm : dec 0b0011_010_0_01111111 = .subImm 2 127 := by decide
theorem test_decode_subReg : dec 0b0011_101_1_110_111_00 = .subReg 5 6 7 := by decide
theorem test_decode_shlImm : dec 0b0100_001_0_00001111 = .shlImm 1 15 := by decide
theorem test_decode_shlReg : dec 0b0100_001_1_010_011_00 = .shlReg 1 2 3 := by decide
theorem test_decode_ldr : dec 0b0101_100_1_010_111_11 = .ldr 4 2 := by decide
theorem test_decode_ldrNoImm : dec 0b0101_111_0_00000000 = .ldrNoImm 0x5E00 := by decide
theorem test_decode_lda : dec 0b0110_1_10000000000 = .lda 1024 := by decide
theorem test_decode_load : dec 0b0111_0_10000000001 = .load 1025 := by decide
theorem test_decode_str : dec 0b1000_0_11111111111 = .str 2047 := by decide
theorem test_decode_jmp : dec 0b1001_0_00000000101 = .jmp 5 := by decide
theorem test_decode_beq : dec 0b1010_0_00000001001 = .beq 9 := by decide
theorem test_decode_bne : dec 0b1011_0_00000000100 = .bne 4 := by decide
theorem test_decode_halt : dec 0b1100_000100100011 = .halt := by decide
theorem test_decode_opcodeUnnamed : dec 0b1101_111111111111 = .opcodeUnnamed 0xDFFF := by decide
theorem test_decode_opcodeReserved : dec 0b1110_000000000000 = .opcodeReserved 0xE000 := by decide

/-- E1. -/
theorem test_encode_addReg : encode OpcodeMap.listing (.addReg 3 3 4) = 0x2770 := by decide
theorem test_encode_bne : encode OpcodeMap.listing (.bne 4) = 0xB004 := by decide
theorem test_encode_halt : encode OpcodeMap.listing .halt = 0xC000 := by decide

theorem test_decodeTableWord : decodeTableWord 16 0xB004 = some (.bne 4) := by decide
theorem test_withFetchWord : step (State.reset.withFetchWord 16 0x9005) = exec (.jmp 5) (State.reset.withFetchWord 16 0x9005) :=
  rfl

/-! The instructions, one step each. -/

/-- A core with the Word `w` at the PC and some registers set. -/
def setup (w : Word) (pc : Nat) (regs : List (Reg × Word)) (memSize : Nat := 2048) : State :=
  let s := regs.foldl (fun s e => s.setReg e.1 e.2) State.reset
  { s with pc := pc, mem := State.reset.mem.write pc w, cfg := { Config.default with memSize := memSize } }

/-- What one step makes of a component of the state. -/
def after {α : Type} (s : State) (f : State → α) : Option α := (nextState (step s)).map f

/-- `s` with a further Word of memory. -/
def put (s : State) (a : Nat) (w : Word) : State := { s with mem := s.mem.write a w }

theorem test_movImm_sign_extends : after (setup 0x0280 0 []) (fun t => (t.reg 1, t.pc)) = some (0xFF80, 1) := by decide
theorem test_movReg : after (setup 0x05FF 0 [(7, 0x0400)]) (fun t => (t.reg 2, t.reg 7)) = some (0x0400, 0x0400) := by decide
theorem test_cmpImm_equal : after (setup 0x12FF 0 [(1, 0xFFFF)]) (fun t => t.flag) = some true := by decide
theorem test_cmpImm_sign_extends : after (setup 0x12FF 0 [(1, 0x00FF)]) (fun t => t.flag) = some false := by decide
theorem test_cmpReg_equal : after (setup 0x1340 0 [(1, 0xFF), (2, 0xFF)]) (fun t => (t.flag, t.reg 1)) = some (true, 0xFF) := by
  decide
theorem test_cmpReg_unequal :
    after { setup 0x1F00 0 [(7, 1)] with flag := true } (fun t => t.flag) = some false := by decide
theorem test_addImm_wraps : after (setup 0x2201 0 [(1, 0xFFFF)]) (fun t => t.reg 1) = some 0 := by decide
theorem test_addImm_negative : after (setup 0x2E80 0 [(7, 0x8000)]) (fun t => t.reg 7) = some 0x7F80 := by decide
theorem test_addReg_wraps : after (setup 0x2BDC 0 [(6, 0xFFFF), (7, 0xFFFF)]) (fun t => t.reg 5) = some 0xFFFE := by decide
theorem test_addReg_same_register : after (setup 0x2324 0 [(1, 0x4001)]) (fun t => t.reg 1) = some 0x8002 := by decide
theorem test_subImm_wraps : after (setup 0x3401 0 []) (fun t => t.reg 2) = some 0xFFFF := by decide
theorem test_subImm_negative : after (setup 0x3480 0 [(2, 0x0080)]) (fun t => t.reg 2) = some 0x0100 := by decide
theorem test_subReg_order : after (setup 0x3128 0 [(1, 3), (2, 5)]) (fun t => t.reg 0) = some 0xFFFE := by decide
theorem test_subReg_dest_is_source : after (setup 0x3994 0 [(4, 0x10), (5, 0xFFF0)]) (fun t => t.reg 4) = some 0x20 := by decide
theorem test_shlImm_loses_top_bit : after (setup 0x4201 0 [(1, 0x8001)]) (fun t => t.reg 1) = some 2 := by decide

/-- "read as an unsigned 16-bit number" (R167): the immediate -1 is the amount 65535, beyond 15. -/
theorem test_shlImm_over : after (setup 0x42FF 0 [(1, 0xFFFF)]) (fun t => t.reg 1) = some (Config.shlOver 0xFFFF 0xFFFF) := rfl
theorem test_shlReg_fifteen : after (setup 0x434C 0 [(2, 1), (3, 15)]) (fun t => t.reg 1) = some 0x8000 := by decide
theorem test_shlReg_over : after (setup 0x434C 0 [(2, 0xFFFF), (3, 16)]) (fun t => t.reg 1) = some (Config.shlOver 0xFFFF 16) := rfl
theorem test_ldr_itself : after (setup 0x5FE0 0 []) (fun t => (t.reg 7, t.pc)) = some (0x5FE0, 1) := by decide
theorem test_ldr_fault : after (setup 0x5120 4 [(1, 0xFFFF)]) (fun t => (t.fault, t.pc, t.halted)) =
    some (some (.memoryFault 4 65535), 4, true) := by decide
theorem test_lda_beyond_memory : after (setup 0x65DC 0 [] 1024) (fun t => (t.reg 7, t.fault)) = some (0x05DC, none) := by decide
theorem test_load : after (put (setup 0x7401 0 []) 1025 0x8000) (fun t => t.reg 7) = some 0x8000 := by decide
theorem test_load_fault : after (setup 0x75DC 3 [(7, 9)] 1024) (fun t => (t.fault, t.reg 7, t.pc)) =
    some (some (.memoryFault 3 1500), 9, 3) := by decide
theorem test_str : after (setup 0x8401 0 [(7, 0x8000)]) (fun t => t.mem) = some [(0, 0x8401), (1025, 0x8000)] := by decide
theorem test_str_over_itself : after (setup 0x8000 0 []) (fun t => (t.mem, t.pc)) = some ([], 1) := by decide
theorem test_jmp : after (setup 0x97FF 0 []) (fun t => t.pc) = some 2047 := by decide
theorem test_jmp_beyond_memory : after (setup 0x95DC 0 [] 1024) (fun t => (t.pc, t.halted)) = some (1500, false) := by decide
theorem test_beq_taken : after { setup 0xA009 7 [] with flag := true } (fun t => t.pc) = some 9 := by decide
theorem test_beq_not_taken : after (setup 0xA009 7 []) (fun t => t.pc) = some 8 := by decide
theorem test_bne_taken : after (setup 0xB004 9 []) (fun t => t.pc) = some 4 := by decide
theorem test_bne_not_taken : after { setup 0xB004 9 [] with flag := true } (fun t => t.pc) = some 10 := by decide
theorem test_halt_at_top : after (setup 0xC000 2047 []) (fun t => (t.halted, t.fault, t.pc)) = some (true, none, 2048) := by decide
theorem test_halt_keeps_pc :
    after { setup 0xC000 10 [] with cfg := { Config.default with haltAdvancesPc := false } } (fun t => (t.halted, t.pc)) =
      some (true, 10) := by decide
theorem test_ldrNoImm : after (setup 0x5200 1 [(1, 1)]) (fun t => (t.fault, t.halted, t.pc, t.reg 1)) =
    some (some (.illegalInstruction 1 0x5200), true, 1, 1) := by decide
theorem test_opcodeUnnamed : after (setup 0xD000 0 []) (fun t => t.fault) = some (some (.illegalInstruction 0 0xD000)) := by decide
theorem test_opcodeReserved : after (setup 0xFFFF 0 []) (fun t => t.fault) = some (some (.illegalInstruction 0 0xFFFF)) := by decide
theorem test_fetch_fault : after { State.reset with pc := 2048 } (fun t => (t.fault, t.halted, t.pc)) =
    some (some (.memoryFault 2048 2048), true, 2048) := by decide
theorem test_halted_takes_no_step : step { State.reset with halted := true } = .fault .halted := rfl

/-! Around the core. -/

/-- The layout of P3 (spec/95_test_vectors.md). -/
def layoutP3 : Layout := ⟨1024, [⟨.code, 256, 256⟩, ⟨.data, 512, 256⟩]⟩

theorem test_layout : (layoutP3.toConfig OpcodeMap.listing true).map (fun c => (c.memSize, c.codeBase)) = some (1024, 256) := by
  decide
theorem test_layout_overlap : Layout.check ⟨1024, [⟨.code, 0, 512⟩, ⟨.data, 511, 1⟩]⟩ = .error ⟨.data⟩ := by decide
theorem test_layout_exceeds : Layout.check ⟨1024, [⟨.code, 0, 512⟩, ⟨.data, 1023, 2⟩]⟩ = .error ⟨.data⟩ := by decide
/-- Two numbers alone decide (R59): an empty `code` section with its base below the total size gives a core. -/
theorem test_layout_empty_code :
    (Layout.toConfig ⟨8, [⟨.code, 7, 0⟩]⟩ OpcodeMap.listing true).map (fun c => (c.memSize, c.codeBase)) = some (8, 7) ∧
      Layout.toConfig ⟨8, [⟨.code, 8, 0⟩]⟩ OpcodeMap.listing true = none := by decide
theorem test_boot_refuses_short_image : boot { Config.default with memSize := 2 } [0] = none := by decide

/-- A short program on a small layout. The Words are those of E1, `BNE 4`, and of the datum -1 of E5. -/
theorem test_assemble :
    assemble (α := Nat) ⟨8, [⟨.code, 2, 3⟩, ⟨.data, 6, 2⟩]⟩ OpcodeMap.listing
      [.directive .code, .instr .add [.reg 3, .reg 3, .reg 4], .instr .halt [], .declare 0, .instr .bne [.label 0],
        .directive .data, .data [-1]] = .ok [0, 0, 0x2770, 0xC000, 0xB004, 0, 0xFFFF, 0] := by decide

/-- E7. -/
theorem test_assemble_overflow :
    assemble (α := Nat) ⟨8, [⟨.data, 4, 4⟩]⟩ OpcodeMap.listing [.directive .data, .data [1, 2, 3, 4, 5]] =
      .error ⟨1, .sectionOverflow .data⟩ := by decide

/-- "collide with another section's base" (R121): the base of an empty section inside `code`. -/
theorem test_assemble_collision :
    assemble (α := Nat) ⟨8, [⟨.code, 2, 3⟩, ⟨.stack, 4, 0⟩]⟩ OpcodeMap.listing [.directive .code, .data [1, 2, 3]] =
      .error ⟨1, .sectionOverflow .code⟩ := by decide

/-- E6. -/
theorem test_assemble_immediate_range :
    assembleInstr (α := Nat) [] .add [.reg 1, .literal 200] = .error (.immediateRange 200) := by decide

/-- `u(w[15:8])` first (R63, big-endian). -/
theorem test_image_big : imageOfBytes .big [0x05, 0xE0] = some [0x05E0] := by decide
theorem test_image_little : imageOfBytes .little [0xE0, 0x05] = some [0x05E0] := by decide

/-- The status output of R233 for P4c. -/
theorem test_fault_status :
    (faultCode (some (.memoryFault 3 2048)), faultPc (some (.memoryFault 3 2048)), faultInfo (some (.memoryFault 3 2048))) =
      (2, some 3#12, some 2048#16) := by decide

/-! Witnesses: for each statement with hypotheses, operands and a state that meet them all. -/

/-- The invariant holds of the states the tests use. -/
theorem inv_of_checks {s : State} (h : (s.cfg.wf && s.mem.wf && s.mem.below s.cfg.memSize && decide (s.pc ≤ memMax) &&
    (s.fault.isNone || s.halted)) = true) : s.Inv := by
  simp only [Bool.and_eq_true, decide_eq_true_eq, Bool.or_eq_true] at h
  exact ⟨h.1.1.1.1, h.1.1.1.2, h.1.1.2, h.1.2, fun hf => h.2.resolve_left (by cases hs : s.fault <;> simp_all)⟩

/-- EncodeDecodeLaws: the numbering, a well-formed term of each illegal row, both sides of the range, and operands. -/
theorem witness_EncodeDecodeLaws : OpcodeMap.listing.wf = true ∧ (Instr.ldrNoImm 0x5000).wf OpcodeMap.listing = true ∧
    (Instr.opcodeUnnamed 0xDFFF).wf OpcodeMap.listing = true ∧ (Instr.opcodeReserved 0xE000).wf OpcodeMap.listing = true ∧
    Mnemonic.shl ∈ [Mnemonic.mov, .cmp, .add, .sub, .shl] ∧ 7 ≤ 7 ∧ (-128 ≤ (-128 : Int) ∧ (127 : Int) ≤ 127) ∧
    ((-129 : Int) < -128 ∧ 127 < (128 : Int)) ∧ Instr.illegalWord .halt = none := by decide

theorem witness_DecodeIsWellFormed : OpcodeMap.listing.wf = true ∧ (dec 0xDFFF).illegalWord = some 0xDFFF := by decide

theorem witness_IgnoredBitsAreIgnored : OpcodeMap.listing.wf = true ∧
    ((0x05FF : Word).getLsbD 8 = true ∧ OpcodeMap.listing.code .mov = (0x05FF : Word).extractLsb 15 12) ∧
    ((0x2773 : Word).getLsbD 8 = true ∧ OpcodeMap.listing.code .add = (0x2773 : Word).extractLsb 15 12) ∧
    OpcodeMap.listing.code .lda = (0x6C00 : Word).extractLsb 15 12 ∧
    OpcodeMap.listing.code .halt = (0xCFFF : Word).extractLsb 15 12 := by decide

/-- IllegalInstructionExactly: an illegal Word at the last address, a legal one, and a Word of each clause of the rule. -/
theorem witness_IllegalInstructionExactly :
    (let s := setup 0xD000 2047 []
     s.cfg.wf = true ∧ s.halted = false ∧ s.fault = none ∧ s.pc < s.cfg.memSize ∧
       after s (fun t => t.fault) = some (some (.illegalInstruction 2047 0xD000))) ∧
    (let s := setup 0x5100 0 []
     s.cfg.wf = true ∧ s.halted = false ∧ s.fault = none ∧ s.pc < s.cfg.memSize) ∧
    (0xE000 : Word).extractLsb 15 12 = 14#4 ∧ (0xF123 : Word).extractLsb 15 12 = 15#4 ∧
    ((0xDFFF : Word).extractLsb 15 12 ≤ 13#4 ∧ ∀ m ∈ Mnemonic.all, OpcodeMap.listing.code m ≠ (0xDFFF : Word).extractLsb 15 12) ∧
    ((0x5E00 : Word).extractLsb 15 12 = OpcodeMap.listing.code .ldr ∧ (0x5E00 : Word).getLsbD 8 = false) := by decide

theorem witness_StepRunsDecodedInstruction :
    let s := setup 0xB004 2047 []
    s.halted = false ∧ s.pc < s.cfg.memSize ∧ decode s.cfg.opc (s.mem.read s.pc) = .bne 4 ∧ (Instr.bne 4).wf s.cfg.opc = true := by
  decide

theorem witness_FetchOutOfRangeFaults :
    (let s := setup 0 1024 [] 1024
     s.halted = false ∧ s.cfg.memSize ≤ s.pc) ∧
    (let s := setup 0 1023 [] 1024
     s.halted = false ∧ s.pc < s.cfg.memSize) := by decide

theorem witness_HaltedCoreTakesNoStep :
    { State.reset with halted := true }.halted = true ∧
      (Session.mk { State.reset with halted := true } none).state = { State.reset with halted := true } := by decide

theorem witness_RunningCoreAlwaysSteps : State.reset.halted = false := by decide

/-- For each `Row` of the statements, a Word that has its fixed bits. -/
theorem witness_Rows :
    (0x02FD : Word) &&& 0xF100 = 0x0000 ∧ (0x05FF : Word) &&& 0xF100 = 0x0100 ∧ (0x1205 : Word) &&& 0xF100 = 0x1000 ∧
    (0x1343 : Word) &&& 0xF100 = 0x1100 ∧ (0x22C8 : Word) &&& 0xF100 = 0x2000 ∧ (0x2773 : Word) &&& 0xF100 = 0x2100 ∧
    (0x3401 : Word) &&& 0xF100 = 0x3000 ∧ (0x3728 : Word) &&& 0xF100 = 0x3100 ∧ (0x420F : Word) &&& 0xF100 = 0x4000 ∧
    (0x434C : Word) &&& 0xF100 = 0x4100 ∧ (0x595F : Word) &&& 0xF100 = 0x5100 ∧ (0x50FF : Word) &&& 0xF100 = 0x5000 ∧
    (0x6C00 : Word) &&& 0xF000 = 0x6000 ∧ (0x77FF : Word) &&& 0xF000 = 0x7000 ∧ (0x87FF : Word) &&& 0xF000 = 0x8000 ∧
    (0x97FF : Word) &&& 0xF000 = 0x9000 ∧ (0xA009 : Word) &&& 0xF000 = 0xA000 ∧ (0xB004 : Word) &&& 0xF000 = 0xB000 ∧
    (0xCFFF : Word) &&& 0xF000 = 0xC000 ∧ (0xDFFF : Word) &&& 0xF000 = 0xD000 ∧ (0xF123 : Word) &&& 0xE000 = 0xE000 := by decide

/-- ShlResult: the amounts 15 and 16, in both forms. -/
theorem witness_ShlResult : (sext16 15).toNat ≤ 15 ∧ 16 ≤ (sext16 16).toNat ∧
    (let s := setup 0x434C 0 [(3, 15)]
     (s.reg 3).toNat ≤ 15) ∧
    (let s := setup 0x434C 0 [(3, 16)]
     16 ≤ (s.reg 3).toNat) := by decide

theorem witness_LdrResult :
    (let s := setup 0x5120 0 [(1, 2047)]
     (s.reg 1).toNat < s.cfg.memSize) ∧
    (let s := setup 0x5120 0 [(1, 2048)]
     s.cfg.memSize ≤ (s.reg 1).toNat) := by decide

theorem witness_LoadResult :
    (1023 : Addr).toNat < (setup 0x73FF 0 [] 1024).cfg.memSize ∧ (setup 0x7400 0 [] 1024).cfg.memSize ≤ (1024 : Addr).toNat := by
  decide

theorem witness_StrResult :
    (let s := setup 0x83FF 0 [(7, 5)] 1024
     s.mem.wf = true ∧ fieldAddress 1023 < s.cfg.memSize) ∧
    (setup 0x8400 0 [] 1024).cfg.memSize ≤ (1024 : Addr).toNat := by decide

/-- StepKeepsInvariant, BusAccessesAreTheSteps: a store at the last address. -/
theorem witness_StepKeepsInvariant :
    ∃ t, (setup 0x87FF 2047 [(7, 5)]).Inv ∧ step (setup 0x87FF 2047 [(7, 5)]) = .next t :=
  ⟨_, inv_of_checks (by decide), rfl⟩

/-- StepKeepsFaultPrecise, FaultsArePrecise: a step that faults, from a state with the invariant. -/
theorem witness_StepKeepsFaultPrecise :
    ∃ t, (setup 0x5120 2047 [(1, 2048)]).Inv ∧ (setup 0x5120 2047 [(1, 2048)]).fault = none ∧
      step (setup 0x5120 2047 [(1, 2048)]) = .next t ∧ t.fault = some (.memoryFault 2047 2048) :=
  ⟨_, inv_of_checks (by decide), by decide, rfl, by decide⟩

/-- FaultsAsTheTableSays: a running state; the largest memory with a `LOAD` and with a `STR` at the last address; and the PC 2048. -/
theorem witness_FaultsAsTheTableSays :
    (∃ t, (setup 0xD000 0 []).fault = none ∧ step (setup 0xD000 0 []) = .next t) ∧
    ((setup 0x77FF 2047 []).Inv ∧ (setup 0x77FF 2047 []).cfg.memSize = 2048 ∧ dec 0x77FF = .load 2047 ∧
      dec 0x87FF = .str 2047) ∧
    ((setup 0 2048 []).cfg.memSize = 2048 ∧ stepFault (setup 0 2048 []) = some (.memoryFault 2048 2048)) :=
  ⟨⟨_, by decide, rfl⟩, ⟨inv_of_checks (by decide), by decide, by decide, by decide⟩, by decide⟩

theorem witness_FlagWrittenByCmpReadByBranches :
    (∃ t, step (setup 0x1000 0 []) = .next t ∧ t.flag ≠ (setup 0x1000 0 []).flag) ∧
    ((Instr.halt).mnemonic ≠ some .beq ∧ (Instr.halt).mnemonic ≠ some .bne) :=
  ⟨⟨_, rfl, by decide⟩, by decide⟩

theorem witness_HaltedSetByHaltAndFaults :
    (∃ t, (setup 0xC000 2047 []).fault = none ∧ step (setup 0xC000 2047 []) = .next t ∧ t.halted = true) ∧
    { State.reset with halted := true }.halted = true :=
  ⟨⟨_, by decide, rfl, by decide⟩, by decide⟩

theorem witness_MemoryWrittenByStrOnly :
    ∃ t, (setup 0x87FF 0 [(7, 5)]).mem.wf = true ∧ step (setup 0x87FF 0 [(7, 5)]) = .next t ∧
      t.mem.read 2047 ≠ (setup 0x87FF 0 [(7, 5)]).mem.read 2047 :=
  ⟨_, by decide, rfl, by decide⟩

/-- RegisterUseAsTheTableSays: a written register that changes, and another register file that agrees on what `LDR` reads. -/
theorem witness_RegisterUseAsTheTableSays :
    (∃ t, exec (.lda 5) State.reset = .next t ∧ t.reg 7 ≠ State.reset.reg 7) ∧
    (∀ r, readsRegister r (.ldr 4 2) → { State.reset with regs := State.reset.regs.set 3 9 }.reg r = State.reset.reg r) :=
  ⟨⟨_, rfl, by decide⟩, fun r h => by rw [show r = 2 from h]; decide⟩

/-- StepSeesOnlyItsTwoWords: a load, and a memory that differs elsewhere. -/
theorem witness_StepSeesOnlyItsTwoWords :
    (setup 0x77FF 0 []).halted = false ∧ SeesSame (setup 0x77FF 0 []) ((setup 0x77FF 0 []).mem.write 5 9) := by
  refine ⟨by decide, by decide, fun a h => ?_⟩
  have ha : a = 2047 := by
    rw [show accessAddress (setup 0x77FF 0 []) (decode (setup 0x77FF 0 []).cfg.opc _) = some 2047 by decide] at h
    exact (Option.some.inj h).symm
  rw [ha]
  decide

theorem witness_ParametersNeverChange : ∃ t, step State.reset = .next t := ⟨_, rfl⟩

theorem witness_TransferOutOfRangeFaultsOneStepLater :
    (let s := setup 0x9400 0 [] 1024
     s.halted = false ∧ s.pc < s.cfg.memSize ∧ s.cfg.memSize ≤ (1024 : Addr).toNat ∧
       decode s.cfg.opc (s.mem.read s.pc) = .jmp 1024) ∧
    (let s := { setup 0xA400 1023 [] 1024 with flag := true }
     s.halted = false ∧ s.pc < s.cfg.memSize ∧ s.cfg.memSize ≤ (1024 : Addr).toNat ∧
       decode s.cfg.opc (s.mem.read s.pc) = .beq 1024 ∧ s.flag = true) ∧
    (let s := setup 0xB7FF 0 [] 1024
     s.halted = false ∧ s.pc < s.cfg.memSize ∧ s.cfg.memSize ≤ (2047 : Addr).toNat ∧
       decode s.cfg.opc (s.mem.read s.pc) = .bne 2047 ∧ s.flag = false) := by decide

/-- StoredWordIsFetchedNext: the store goes to the last address. -/
theorem witness_StoredWordIsFetchedNext :
    let s := setup 0x87FF 2046 [(7, 0xC000)]
    s.mem.wf = true ∧ s.halted = false ∧ s.pc < s.cfg.memSize ∧ decode s.cfg.opc (s.mem.read s.pc) = .str 2047 ∧
      (2047 : Addr).toNat = s.pc + 1 ∧ s.pc + 1 < s.cfg.memSize := by decide

/-- PcDoesNotWrap: the last instruction of P4b. -/
theorem witness_PcDoesNotWrap :
    ∃ t, (setup 0x2001 2047 []).halted = false ∧ (setup 0x2001 2047 []).fault = none ∧ 1 ≤ (setup 0x2001 2047 []).cfg.memSize ∧
      (setup 0x2001 2047 []).pc = (setup 0x2001 2047 []).cfg.memSize - 1 ∧
      (dec 0x2001).mnemonic ∉ [some Mnemonic.jmp, some .beq, some .bne, some .halt] ∧
      step (setup 0x2001 2047 []) = .next t ∧ t.fault = none :=
  ⟨_, by decide, by decide, by decide, by decide, by decide, rfl, by decide⟩

/-- ZeroWordsClearR0UntilTheTop: the state after reset. -/
theorem witness_ZeroWordsClearR0UntilTheTop :
    State.reset.halted = false ∧ State.reset.cfg.opc = OpcodeMap.listing ∧ State.reset.pc < State.reset.cfg.memSize ∧
      ∀ a, State.reset.pc ≤ a → a < State.reset.cfg.memSize → State.reset.mem.read a = 0 :=
  ⟨by decide, by decide, by decide, fun _ _ _ => rfl⟩

/-- RunEndIsUnique: a run that ends, after one step. -/
theorem witness_RunEndIsUnique : (∃ t, EndsIn (setup 0xC000 0 []) t) ∧ (runFor 1 (setup 0xC000 0 [])).halted = true :=
  ⟨⟨_, by decide, 1, rfl⟩, by decide⟩

/-- BusAccessesAreTheSteps: an `LDR`, a `LOAD` and a `STR` at the last address and beyond it, and a fetch beyond memory. -/
theorem witness_BusAccessesAreTheSteps :
    stepAccesses (setup 0x5120 0 [(1, 2047)]) = [.read 0, .read 2047] ∧
    stepAccesses (setup 0x5120 0 [(1, 2048)]) = [.read 0] ∧
    stepAccesses (setup 0x73FF 0 [] 1024) = [.read 0, .read 1023] ∧ stepAccesses (setup 0x7400 0 [] 1024) = [.read 0] ∧
    stepAccesses (setup 0x83FF 0 [(7, 5)] 1024) = [.read 0, .write 1023 5] ∧
    stepAccesses (setup 0x8400 0 [] 1024) = [.read 0] ∧ stepAccesses (setup 0 1024 [] 1024) = [] := by decide

/-- ResetValues: the smallest memory. -/
theorem witness_ResetValues :
    { Config.default with memSize := 1 }.wf = true ∧ [(0xC000 : Word)].length = { Config.default with memSize := 1 }.memSize := by
  decide

/-- StartMeetsInvariantOrIsRefused: parameters out of range, an image too short, and a start. -/
theorem witness_StartMeetsInvariantOrIsRefused :
    { Config.default with memSize := 0 }.wf = false ∧ ([] : List Word).length ≠ { Config.default with memSize := 1 }.memSize ∧
      boot { Config.default with memSize := 1 } [0xC000] ≠ none := by decide

theorem witness_ResetStateIsTheDefaultStart :
    (setup 0 5 [] 1).cfg.wf = true ∧ [(0xC000 : Word)].length = (setup 0 5 [] 1).cfg.memSize := by decide

theorem witness_LayoutGivesTwoNumbers :
    OpcodeMap.listing.wf = true ∧ (∃ c, layoutP3.toConfig OpcodeMap.listing true = some c) ∧ layoutP3.check = .ok () ∧
      layoutP3.resolve .code = some (256, 256) ∧ 1 ≤ 256 ∧ layoutP3.totalSize ≤ 2048 :=
  ⟨by decide, ⟨_, rfl⟩, by decide, by decide, by decide, by decide⟩

/-- SessionStartsAtReset: a session on a layout of one Word, and an image that is too short. -/
theorem witness_SessionStartsAtReset :
    (∃ d, Session.start ⟨1, [⟨.code, 0, 1⟩]⟩ OpcodeMap.listing true [0xC000] = some d) ∧
      (∃ s, start ⟨1, [⟨.code, 0, 1⟩]⟩ OpcodeMap.listing true [0xC000] = some s) ∧ ([] : List Word).length ≠ 1 :=
  ⟨⟨_, rfl⟩, ⟨_, rfl⟩, by decide⟩

/-- ContentStaysInItsSection: a program with a Word in each section; and a section filled to its end, and to the base of an empty
section inside it. -/
theorem witness_ContentStaysInItsSection :
    (∃ q, (PassOne.start (α := Nat) layoutP3).run 0 [.directive .code, .instr .halt [], .directive .data, .data [1]] = .ok q ∧
      q.placed.length = 2) ∧
    (let l : Layout := ⟨8, [⟨.code, 2, 3⟩, ⟨.stack, 4, 0⟩]⟩
     let p : PassOne Nat := { PassOne.start l with active := some .code }
     let full := { p with code := { p.code with next := 5 } }
     let atBase := { p with code := { p.code with next := 4 } }
     l.resolve DirectiveSection.code.name = some (2, 3) ∧
       (full.cursor .code).limit = (sectionCursor l .code).limit ∧ 2 ≤ (full.cursor .code).next ∧ 2 + 3 ≤ (full.cursor .code).next ∧
       (atBase.cursor .code).limit = (sectionCursor l .code).limit ∧
       ⟨.stack, 4, 0⟩ ∈ l.sections.eraseP (fun y => y.name == DirectiveSection.code.name) ∧ (atBase.cursor .code).next = 4) :=
  ⟨⟨_, rfl, by decide⟩, by decide⟩

/-- AssembledInstructionsAreInTheImage: a program with an instruction and a datum. -/
theorem witness_AssembledInstructionsAreInTheImage :
    ∃ image q, assemble (α := Nat) layoutP3 OpcodeMap.listing [.directive .code, .instr .halt [], .directive .data, .data [-16384]] =
        .ok image ∧
      (PassOne.start (α := Nat) layoutP3).run 0 [.directive .code, .instr .halt [], .directive .data, .data [-16384]] = .ok q ∧
      ⟨1, 256, .instr .halt []⟩ ∈ q.placed ∧ ⟨3, 512, .datum (-16384)⟩ ∈ q.placed :=
  ⟨_, _, rfl, rfl, by decide, by decide⟩

end Sys2Proof.Tests
end

section
/-!
SUPPORT. The flag, `halted` and the reset values (spec/10_state.md R28, R29, R45): what one `Effect` does to the two bits, and
that `exec` carries them along unread.
-/
namespace Sys2Proof.Machine

section
variable {s t : State} {i : Instr}

/-- Only the update of `CMP` touches the flag (R28). -/
theorem Effect.flag_eq (h : Effect s i t) (hi : i.mnemonic ≠ some .cmp) : t.flag = s.flag := by
  cases h with
  | flag _ hcmp => exact absurd hcmp hi
  | _ => rfl

/-- From a running state, an instruction ends halted exactly by being `HALT` or by taking a fault (R29). -/
theorem Effect.halted_iff (h : Effect s i t) (hrun : s.halted = false) (hnone : s.fault = none) :
    t.halted = true ↔ t.fault ≠ none ∨ i = .halt := by
  cases h with
  | halt hi => simp [hi]
  | illegal w _ => simp
  | memory a _ _ => simp
  | write d v hi =>
    have hne : i ≠ .halt := by rintro rfl; simp [Instr.mnemonic] at hi
    simp [hrun, hnone, hne]
  | flag b hi =>
    have hne : i ≠ .halt := by rintro rfl; simp [Instr.mnemonic] at hi
    simp [hrun, hnone, hne]
  | store addr hi _ => simp [hrun, hnone, hi]
  | jump addr hi => simp [hrun, hnone, hi]
  | branch addr taken hi => rcases hi with rfl | rfl <;> simp [hrun, hnone]

end

/-- The two runs of an instruction that start apart in the flag and in `halted` alone end apart in these two bits alone, and
agree on each of them if they agreed on it before. A conditional transfer is the one reader of the flag (R28), so for it the
flags must be the same. -/
theorem exec_with_flag_halted (i : Instr) (s : State) (b h : Bool)
    (hb : i.mnemonic = some .beq ∨ i.mnemonic = some .bne → b = s.flag) :
    ∃ t b' h', exec i s = .next t ∧
      exec i { s with flag := b, halted := h } = .next { t with flag := b', halted := h' } ∧
      (b = s.flag → b' = t.flag) ∧ (h = s.halted → h' = t.halted) := by
  cases i with
  | ldr d a =>
    rcases Nat.lt_or_ge (wordAddress (s.reg a)) s.cfg.memSize with ha | ha
    · exact ⟨_, _, _, exec_ldr_of_lt ha, exec_ldr_of_lt (s := { s with flag := b, halted := h }) ha, id, id⟩
    · exact ⟨_, _, _, exec_ldr_of_le ha, exec_ldr_of_le (s := { s with flag := b, halted := h }) ha, id, fun _ => rfl⟩
  | load addr =>
    rcases Nat.lt_or_ge (fieldAddress addr) s.cfg.memSize with ha | ha
    · exact ⟨_, _, _, exec_load_of_lt ha, exec_load_of_lt (s := { s with flag := b, halted := h }) ha, id, id⟩
    · exact ⟨_, _, _, exec_load_of_le ha, exec_load_of_le (s := { s with flag := b, halted := h }) ha, id, fun _ => rfl⟩
  | str addr =>
    rcases Nat.lt_or_ge (fieldAddress addr) s.cfg.memSize with ha | ha
    · exact ⟨_, _, _, exec_str_of_lt ha, exec_str_of_lt (s := { s with flag := b, halted := h }) ha, id, id⟩
    · exact ⟨_, _, _, exec_str_of_le ha, exec_str_of_le (s := { s with flag := b, halted := h }) ha, id, fun _ => rfl⟩
  | beq addr =>
    obtain rfl : b = s.flag := hb (.inl rfl)
    exact ⟨_, _, _, rfl, rfl, id, id⟩
  | bne addr =>
    obtain rfl : b = s.flag := hb (.inr rfl)
    exact ⟨_, _, _, rfl, rfl, id, id⟩
  | cmpImm _ _ => exact ⟨_, _, _, rfl, rfl, fun _ => rfl, id⟩
  | cmpReg _ _ => exact ⟨_, _, _, rfl, rfl, fun _ => rfl, id⟩
  | halt => exact ⟨_, _, _, rfl, rfl, id, fun _ => rfl⟩
  | ldrNoImm _ => exact ⟨_, _, _, rfl, rfl, id, fun _ => rfl⟩
  | opcodeUnnamed _ => exact ⟨_, _, _, rfl, rfl, id, fun _ => rfl⟩
  | opcodeReserved _ => exact ⟨_, _, _, rfl, rfl, id, fun _ => rfl⟩
  | _ => exact ⟨_, _, _, rfl, rfl, id, id⟩

/-- An instruction that is no conditional transfer does not read the flag (R28). -/
theorem exec_flag_unread {i : Instr} (s : State) (b : Bool) (hbeq : i.mnemonic ≠ some .beq) (hbne : i.mnemonic ≠ some .bne) :
    ∃ t u, exec i s = .next t ∧ exec i { s with flag := b } = .next u ∧ { u with flag := t.flag } = t := by
  have hb (hbr : i.mnemonic = some .beq ∨ i.mnemonic = some .bne) : b = s.flag := absurd hbr (not_or.mpr ⟨hbeq, hbne⟩)
  obtain ⟨t, b', h', ht, hu, -, hhalted⟩ := exec_with_flag_halted i s b s.halted hb
  refine ⟨t, _, ht, hu, ?_⟩
  rw [hhalted rfl]

/-- No instruction reads `halted` (R29). -/
theorem exec_halted_unread (i : Instr) (s : State) (b : Bool) :
    ∃ t u, exec i s = .next t ∧ exec i { s with halted := b } = .next u ∧ { u with halted := t.halted } = t := by
  obtain ⟨t, b', h', ht, hu, hflag, -⟩ := exec_with_flag_halted i s s.flag b fun _ => rfl
  refine ⟨t, _, ht, hu, ?_⟩
  rw [hflag rfl]

/-- A step that changes the flag fetched and executed a `CMP` (R28). -/
theorem step_flag_changed {s t : State} (h : step s = .next t) (hne : t.flag ≠ s.flag) :
    (decode s.cfg.opc (s.mem.read s.pc)).mnemonic = some .cmp ∧ s.pc < s.cfg.memSize := by
  obtain ⟨-, ⟨-, rfl⟩ | ⟨hpc, hexec⟩⟩ := step_next h
  · exact absurd rfl hne
  · exact ⟨by_contra fun hcmp => hne ((effect_of_exec hexec).flag_eq hcmp), hpc⟩

/-- A step ends halted exactly if it faulted, in the fetch or later, or executed `HALT` (R29). -/
theorem step_halted_iff {s t : State} (hnone : s.fault = none) (h : step s = .next t) :
    t.halted = true ↔ t.fault ≠ none ∨ (s.pc < s.cfg.memSize ∧ decode s.cfg.opc (s.mem.read s.pc) = .halt) := by
  obtain ⟨hrun, ⟨-, rfl⟩ | ⟨hpc, hexec⟩⟩ := step_next h
  · simp
  · simpa [hpc] using (effect_of_exec hexec).halted_iff hrun hnone

/-- The memory of an image holds the image's Word at each of its addresses (R45). -/
theorem Memory.read_ofWords_of_lt {image : List Word} {a : Nat} (h : a < image.length) :
    some ((Memory.ofWords 0 image).read a) = image[a]? := by
  have hread := Memory.read_ofWords 0 a image
  rw [Nat.zero_add] at hread
  simp [hread, h]

/-- The host starts a run on parameters within R8 and an image of `MEM_SIZE` Words (R282, R286). -/
theorem boot_eq_some {cfg : Config} {image : List Word} (hwf : cfg.wf = true) (hlen : image.length = cfg.memSize) :
    boot cfg image = some (State.resetTo cfg image) := by
  simp [boot, hwf, hlen]

/-- Settles O28: of the updates of `Effect` only that of `CMP` touches the flag, and only the branches read it. -/
theorem flagWrittenByCmpReadByBranches : Obligations.FlagWrittenByCmpReadByBranches :=
  ⟨fun _ _ => step_flag_changed, fun _ => exec_flag_unread, fun _ _ _ => ⟨rfl, rfl, rfl⟩⟩

/-- Settles O29: `halted` rises with `HALT` and with a fault taken in the fetch or the execution, and a halted state has no next
state. -/
theorem haltedSetByHaltAndFaults : Obligations.HaltedSetByHaltAndFaults := by
  refine ⟨State.applyReset_halted, fun _ _ => step_halted_iff, fun s t hhalted hstep => ?_, exec_halted_unread⟩
  obtain ⟨hrun, -⟩ := step_next hstep
  simp [hrun] at hhalted

/-- Settles O40: the start is `State.resetTo`, whose memory reads as the image. -/
theorem resetValues : Obligations.ResetValues := fun cfg image hwf hlen =>
  ⟨State.resetTo cfg image, boot_eq_some hwf hlen, State.resetTo_reg cfg image, rfl, rfl, rfl, rfl, rfl,
    fun _ ha => Memory.read_ofWords_of_lt (hlen ▸ ha)⟩

end Sys2Proof.Machine
end

section
/-!
SUPPORT. The fetch (spec/40_cycle.md R131, R132): the step of a running core on the far side of the bound, and what a raised fault
leaves unchanged (R236).
-/
namespace Sys2Proof.Machine
open Sys2Proof.Claims

/-- Fault entry takes the fault (R236). -/
theorem State.raise_takesFault (s : State) (f : FaultRecord) : TakesFault s (s.raise f) f :=
  ⟨rfl, rfl, fun _ => rfl, rfl, rfl, fun _ => rfl, rfl⟩

/-- A running core whose fetch faults takes that fault and executes nothing (R131). -/
theorem step_of_fetch_error {s : State} {f : FaultRecord} (hrun : s.halted = false) (hfetch : s.fetch = .error f) :
    step s = .next (s.raise f) := by
  simp [step, hrun, hfetch]

/-- Settles O7: the fetch compares the PC with `MEM_SIZE`, and its fault is the step's only effect. -/
theorem fetchOutOfRangeFaults : Obligations.FetchOutOfRangeFaults := fun s hrun =>
  ⟨fun hpc => ⟨_, step_of_fetch_error hrun (State.fetch_of_le hpc), s.raise_takesFault _⟩, State.fetch_of_lt⟩

end Sys2Proof.Machine
end

section
/-!
SUPPORT. The decoder and the encoder against each other (spec/30_encoding.md sections 4 and 5): every Word decodes to a well-formed
term, decoding inverts encoding, and encoding a decoded Word clears its ignored bits and nothing else. The laws of R103 and the
rules on ignored bits (R107 to R109) follow from these three.
-/
namespace Sys2Proof
open Sys2Proof.Machine Sys2Proof.Claims

theorem and_not_eq_self_iff (w m : Word) : w &&& ~~~m = w ↔ w &&& m = 0 := by
  constructor
  · intro h
    rw [← h]
    simp [BitVec.and_assoc]
  · intro h
    apply BitVec.eq_of_getLsbD_eq
    intro i hi
    have hbit := congrArg (BitVec.getLsbD · i) h
    simp at hbit ⊢
    grind

/-! Each layout, put together again from the fields of a Word: the bits that belong to no field become 0 (R102). -/

section Layouts
variable (w : Word)

theorem encodeRImm_of_fields (h : modeBit w = false) : encodeRImm (opcodeField w) (destField w) (imm8Field w) = w := by
  apply BitVec.eq_of_getLsbD_eq
  intro i hi
  simp only [modeBit] at h
  simp only [encodeRImm_bit, opcodeField, destField, imm8Field, BitVec.getLsbD_extractLsb']
  grind

theorem encodeRReg_of_three_fields (h : modeBit w = true) :
    encodeRReg (opcodeField w) (destField w) (src1Field w) (src2Field w) = w &&& ~~~0x0003 := by
  have hmask : ∀ i < 16, (0x0003 : Word).getLsbD i = decide (i < 2) := by decide
  apply BitVec.eq_of_getLsbD_eq
  intro i hi
  simp only [modeBit] at h
  simp only [encodeRReg_bit, opcodeField, destField, src1Field, src2Field, BitVec.getLsbD_extractLsb', BitVec.getLsbD_and,
    BitVec.getLsbD_not, hmask i hi]
  grind

theorem encodeRReg_of_two_fields (h : modeBit w = true) :
    encodeRReg (opcodeField w) (destField w) (src1Field w) 0 = w &&& ~~~0x001F := by
  have hmask : ∀ i < 16, (0x001F : Word).getLsbD i = decide (i < 5) := by decide
  apply BitVec.eq_of_getLsbD_eq
  intro i hi
  simp only [modeBit] at h
  simp only [encodeRReg_bit, opcodeField, destField, src1Field, BitVec.getLsbD_extractLsb', BitVec.getLsbD_and,
    BitVec.getLsbD_not, hmask i hi]
  grind

theorem encodeA_of_fields : encodeA (opcodeField w) (addressField w) = w &&& ~~~0x0800 := by
  have hmask : ∀ i < 16, (0x0800 : Word).getLsbD i = decide (i = 11) := by decide
  apply BitVec.eq_of_getLsbD_eq
  intro i hi
  simp only [encodeA_bit, opcodeField, addressField, BitVec.getLsbD_extractLsb', BitVec.getLsbD_and, BitVec.getLsbD_not,
    hmask i hi]
  grind

theorem encodeZ_of_fields : encodeZ (opcodeField w) = w &&& ~~~0x0FFF := by
  have hmask : ∀ i < 16, (0x0FFF : Word).getLsbD i = decide (i < 12) := by decide
  apply BitVec.eq_of_getLsbD_eq
  intro i hi
  simp only [encodeZ_bit, opcodeField, BitVec.getLsbD_extractLsb', BitVec.getLsbD_and, BitVec.getLsbD_not, hmask i hi]
  grind

end Layouts

/-! The three facts, for every numbering within R8. -/

/-- `Laws.EncodedMnemonic`, for every instruction at once. -/
theorem mnemonicOf_encode {o : OpcodeMap} (h : o.wf = true) {i : Instr} (hi : i.wf o = true) :
    o.mnemonicOf (opcodeField (encode o i)) = i.mnemonic := by
  open Laws.EncodedMnemonic in
  cases i with
  | movImm d imm => exact movImm d imm o h hi
  | movReg d a => exact movReg d a o h hi
  | cmpImm d imm => exact cmpImm d imm o h hi
  | cmpReg d a => exact cmpReg d a o h hi
  | addImm d imm => exact addImm d imm o h hi
  | addReg d a b => exact addReg d a b o h hi
  | subImm d imm => exact subImm d imm o h hi
  | subReg d a b => exact subReg d a b o h hi
  | shlImm d imm => exact shlImm d imm o h hi
  | shlReg d a b => exact shlReg d a b o h hi
  | ldr d a => exact ldr d a o h hi
  | ldrNoImm w => exact ldrNoImm w o h hi
  | lda addr => exact lda addr o h hi
  | load addr => exact load addr o h hi
  | str addr => exact str addr o h hi
  | jmp addr => exact jmp addr o h hi
  | beq addr => exact beq addr o h hi
  | bne addr => exact bne addr o h hi
  | halt => exact halt o h hi
  | opcodeUnnamed w => exact opcodeUnnamed w o h hi
  | opcodeReserved w => exact opcodeReserved w o h hi

theorem decode_encode {o : OpcodeMap} (h : o.wf = true) {i : Instr} (hi : i.wf o = true) : decode o (encode o i) = i := by
  unfold decode
  rw [mnemonicOf_encode h hi]
  cases i with
  | ldrNoImm w =>
    obtain ⟨-, hmode⟩ : opcodeField w = o.ldr ∧ modeBit w = false := by simpa [Instr.wf] using hi
    simp [encode, Instr.mnemonic, decodeR, hmode]
  | opcodeUnnamed w =>
    obtain ⟨hle, -⟩ : opcodeField w ≤ 13#4 ∧ o.names (opcodeField w) = false := by simpa [Instr.wf] using hi
    simp [encode, Instr.mnemonic, hle]
  | opcodeReserved w =>
    have hge : 14#4 ≤ opcodeField w := by simpa [Instr.wf] using hi
    have hnle : ¬ opcodeField w ≤ 13#4 := by bv_omega
    simp [encode, Instr.mnemonic, hnle]
  | _ => simp [encode, Instr.mnemonic, decodeR]

theorem decode_wf {o : OpcodeMap} (h : o.wf = true) (w : Word) : (decode o w).wf o = true := by
  rcases hm : o.mnemonicOf (opcodeField w) with _ | m
  · simp only [decode, hm]
    split
    next hle => simp [Instr.wf, hle, OpcodeMap.names_eq_false.mpr hm]
    next hgt =>
      have hge : 14#4 ≤ opcodeField w := by bv_omega
      simp [Instr.wf, hge]
  · cases m with
    | ldr =>
      have hop : opcodeField w = o.ldr := ((OpcodeMap.mnemonicOf_eq_some h).mp hm).symm
      cases hmode : modeBit w
      · have hdec : decode o w = .ldrNoImm w := by simp [decode, hm, decodeR, hmode]
        simp [hdec, Instr.wf, hop, hmode]
      · simp [decode, hm, decodeR, hmode, Instr.wf]
    | _ => cases hmode : modeBit w <;> simp [decode, hm, decodeR, hmode, Instr.wf]

/-- An illegal Word keeps itself (R133). -/
theorem illegalWord_decode {o : OpcodeMap} {w w' : Word} (h : (decode o w).illegalWord = some w') : w' = w := by
  rcases hm : o.mnemonicOf (opcodeField w) with _ | m
  · simp only [decode, hm] at h
    split at h <;> exact (Option.some.inj h).symm
  · cases m with
    | ldr =>
      cases hmode : modeBit w <;> simp [decode, hm, decodeR, hmode, Instr.illegalWord] at h
      exact h.symm
    | _ => cases hmode : modeBit w <;> simp [decode, hm, decodeR, hmode, Instr.illegalWord] at h

/-- Encoding a decoded Word clears its ignored bits, and nothing else (R102, R107, R108, R109). -/
theorem encode_decode {o : OpcodeMap} (h : o.wf = true) (w : Word) : encode o (decode o w) = w &&& ~~~ignoredBits o w := by
  have hall : w &&& ~~~0 = w := BitVec.and_allOnes
  rcases hm : o.mnemonicOf (opcodeField w) with _ | m
  · simp only [decode, ignoredBits, hm, hall]
    split <;> rfl
  · have hcode : o.code m = opcodeField w := (OpcodeMap.mnemonicOf_eq_some h).mp hm
    cases hmode : modeBit w
    all_goals
      cases m <;> simp only [OpcodeMap.code] at hcode <;>
        simp only [decode, ignoredBits, hm, decodeR, hmode, encode, hcode, hall, encodeRImm_of_fields, encodeRReg_of_two_fields,
          encodeRReg_of_three_fields, encodeA_of_fields, encodeZ_of_fields, Bool.false_eq_true, if_true, if_false]

theorem decode_and_not_ignoredBits {o : OpcodeMap} (h : o.wf = true) (w : Word) :
    decode o (w &&& ~~~ignoredBits o w) = decode o w := by
  rw [← encode_decode h, decode_encode h (decode_wf h w)]

theorem encode_and_ignoredBits {o : OpcodeMap} (h : o.wf = true) {i : Instr} (hi : i.wf o = true) :
    encode o i &&& ignoredBits o (encode o i) = 0 := by
  rw [← and_not_eq_self_iff, ← encode_decode h, decode_encode h hi]


/-! The laws of R103. -/

/-- What the assembler makes of `m rd,#v`, for the five mnemonics with an immediate form (R116): the operands are checked, and the
instruction carries them. -/
theorem assembleInstr_immediate {m : Mnemonic} (hm : m ∈ [Mnemonic.mov, .cmp, .add, .sub, .shl]) :
    ∃ make : Reg → Imm8 → Instr,
      (∀ d v, assembleInstr (α := Nat) [] m [.reg d, .literal v] = immediateForm make d v) ∧
      ∀ d imm, immediateOf (make d imm) = some imm ∧ ∀ o, (make d imm).wf o = true := by
  simp only [List.mem_cons, List.not_mem_nil, or_false] at hm
  rcases hm with rfl | rfl | rfl | rfl | rfl
  · exact ⟨.movImm, fun _ _ => rfl, fun _ _ => ⟨rfl, fun _ => rfl⟩⟩
  · exact ⟨.cmpImm, fun _ _ => rfl, fun _ _ => ⟨rfl, fun _ => rfl⟩⟩
  · exact ⟨.addImm, fun _ _ => rfl, fun _ _ => ⟨rfl, fun _ => rfl⟩⟩
  · exact ⟨.subImm, fun _ _ => rfl, fun _ _ => ⟨rfl, fun _ => rfl⟩⟩
  · exact ⟨.shlImm, fun _ _ => rfl, fun _ _ => ⟨rfl, fun _ => rfl⟩⟩

theorem immediateForm_eq {α : Type} (make : Reg → Imm8 → Instr) {d : Nat} (hd : d ≤ 7) (v : Int) :
    immediateForm (α := α) make d v = (immediateOperand v).map (make (BitVec.ofNat 3 d)) := by
  simp only [immediateForm, registerOperand, hd, if_true]
  rfl

/-- The immediate survives the assembler, the encoder and the decoder (R103, R120). -/
theorem immediate_round_trip {o : OpcodeMap} (h : o.wf = true) {m : Mnemonic}
    (hm : m ∈ [Mnemonic.mov, .cmp, .add, .sub, .shl]) {d : Nat} (hd : d ≤ 7) {v : Int} (hv : -128 ≤ v ∧ v ≤ 127) :
    ∃ i imm, assembleInstr (α := Nat) [] m [.reg d, .literal v] = .ok i ∧
      immediateOf (decode o (encode o i)) = some imm ∧ imm.toInt = v := by
  obtain ⟨make, hasm, hmake⟩ := assembleInstr_immediate hm
  obtain ⟨himm, hwf⟩ := hmake (BitVec.ofNat 3 d) (BitVec.ofInt 8 v)
  refine ⟨make (BitVec.ofNat 3 d) (BitVec.ofInt 8 v), BitVec.ofInt 8 v, ?_, ?_, ?_⟩
  · rw [hasm, immediateForm_eq make hd, immediateOperand, if_pos hv]
    rfl
  · rw [decode_encode h (hwf o), himm]
  · exact BitVec.toInt_ofInt_eq_self (by decide) (by norm_num; omega) (by norm_num; omega)

/-- An immediate outside `-128..127` does not assemble (R103, R120). -/
theorem immediate_out_of_range {m : Mnemonic} (hm : m ∈ [Mnemonic.mov, .cmp, .add, .sub, .shl]) {d : Nat} (hd : d ≤ 7) {v : Int}
    (hv : v < -128 ∨ 127 < v) :
    assembleInstr (α := Nat) [] m [.reg d, .literal v] = .error (.immediateRange v) := by
  obtain ⟨make, hasm, -⟩ := assembleInstr_immediate hm
  rw [hasm, immediateForm_eq make hd, immediateOperand, if_neg (by omega)]
  rfl

/-- R221: the other bits of a Word with `HALT`'s opcode value do not matter. -/
theorem decode_of_halt_opcode {o : OpcodeMap} (h : o.wf = true) {w : Word} (hw : o.code .halt = opcodeField w) :
    decode o w = .halt := by
  simp [decode, (OpcodeMap.mnemonicOf_eq_some h).mpr hw]

/-- `HALT` has more than one Word (R109). -/
theorem decode_not_injective {o : OpcodeMap} (h : o.wf = true) : ∃ w w' : Word, w ≠ w' ∧ decode o w = decode o w' := by
  refine ⟨encodeA o.halt 0, encodeA o.halt 1, ?_, ?_⟩
  · intro he
    simpa using congrArg addressField he
  · have hdec (addr : Addr) : decode o (encodeA o.halt addr) = .halt := decode_of_halt_opcode h (opcodeField_encodeA _ _).symm
    rw [hdec, hdec]

theorem wf_of_legal (o : OpcodeMap) {i : Instr} (hi : i.illegalWord = none) : i.wf o = true := by
  cases i with
  | ldrNoImm _ => simp [Instr.illegalWord] at hi
  | opcodeUnnamed _ => simp [Instr.illegalWord] at hi
  | opcodeReserved _ => simp [Instr.illegalWord] at hi
  | _ => rfl

/-- Settles O1: the laws of R103, from `decode_encode` and `encode_decode`. -/
theorem encodeDecodeLaws : Obligations.EncodeDecodeLaws := fun o h =>
  ⟨fun _ => decode_encode h,
    fun _ _ _ hm hd => ⟨immediate_round_trip h hm hd, immediate_out_of_range hm hd⟩,
    fun w => by rw [encode_decode h, and_not_eq_self_iff],
    decode_not_injective h,
    fun i hi => by rw [decode_encode h (wf_of_legal o hi), hi]⟩

/-- Settles O2. -/
theorem decodeIsWellFormed : Obligations.DecodeIsWellFormed := fun _ w h => ⟨decode_wf h w, fun _ => illegalWord_decode⟩

/-! The ignored bits (R107, R108, R109). -/

section Ignored
variable {o : OpcodeMap} {w : Word} {m : Mnemonic}

/-- Register-form `MOV`, `CMP` and `LDR` ignore `w[4:0]` (R107, R108). -/
theorem ignoredBits_of_two_registers (hm : o.mnemonicOf (opcodeField w) = some m) (hmem : m ∈ [Mnemonic.mov, .cmp, .ldr])
    (hmode : modeBit w = true) : ignoredBits o w = 0x001F ∧ (decode o w).illegalWord = none := by
  simp only [List.mem_cons, List.not_mem_nil, or_false] at hmem
  rcases hmem with rfl | rfl | rfl <;> simp [ignoredBits, decode, decodeR, hm, hmode, Instr.illegalWord]

/-- Register-form `ADD`, `SUB` and `SHL` ignore `w[1:0]` (R107). -/
theorem ignoredBits_of_three_registers (hm : o.mnemonicOf (opcodeField w) = some m) (hmem : m ∈ [Mnemonic.add, .sub, .shl])
    (hmode : modeBit w = true) : ignoredBits o w = 0x0003 ∧ (decode o w).illegalWord = none := by
  simp only [List.mem_cons, List.not_mem_nil, or_false] at hmem
  rcases hmem with rfl | rfl | rfl <;> simp [ignoredBits, decode, decodeR, hm, hmode, Instr.illegalWord]

/-- The A-class ignores `w[11]` (R109). -/
theorem ignoredBits_of_address (hm : o.mnemonicOf (opcodeField w) = some m)
    (hmem : m ∈ [Mnemonic.lda, .load, .str, .jmp, .beq, .bne]) :
    ignoredBits o w = 0x0800 ∧ (decode o w).illegalWord = none := by
  simp only [List.mem_cons, List.not_mem_nil, or_false] at hmem
  rcases hmem with rfl | rfl | rfl | rfl | rfl | rfl <;> simp [ignoredBits, decode, hm, Instr.illegalWord]

end Ignored

/-- A Word decodes as the one with its ignored bits cleared, the bits given as a mask and its complement. -/
theorem decode_clear_ignored {o : OpcodeMap} (h : o.wf = true) {w mask keep : Word} (hkeep : ~~~mask = keep)
    (hw : ignoredBits o w = mask ∧ (decode o w).illegalWord = none) :
    decode o (w &&& keep) = decode o w ∧ (decode o w).illegalWord = none := by
  obtain ⟨hmask, hlegal⟩ := hw
  rw [← hkeep, ← hmask]
  exact ⟨decode_and_not_ignoredBits h w, hlegal⟩

section EncodedZeros
variable {o : OpcodeMap} (h : o.wf = true) {i : Instr} (hi : i.wf o = true)
include h hi

theorem encode_two_registers_and (m : Mnemonic) (hm : i.mnemonic = some m) (hmem : m ∈ [Mnemonic.mov, .cmp, .ldr])
    (hmode : modeBit (encode o i) = true) : encode o i &&& 0x001F = 0 := by
  have hmn := (mnemonicOf_encode h hi).trans hm
  rw [← (ignoredBits_of_two_registers hmn hmem hmode).1, encode_and_ignoredBits h hi]

theorem encode_three_registers_and (m : Mnemonic) (hm : i.mnemonic = some m) (hmem : m ∈ [Mnemonic.add, .sub, .shl])
    (hmode : modeBit (encode o i) = true) : encode o i &&& 0x0003 = 0 := by
  have hmn := (mnemonicOf_encode h hi).trans hm
  rw [← (ignoredBits_of_three_registers hmn hmem hmode).1, encode_and_ignoredBits h hi]

theorem encode_address_and (m : Mnemonic) (hm : i.mnemonic = some m)
    (hmem : m ∈ [Mnemonic.lda, .load, .str, .jmp, .beq, .bne]) : encode o i &&& 0x0800 = 0 := by
  have hmn := (mnemonicOf_encode h hi).trans hm
  rw [← (ignoredBits_of_address hmn hmem).1, encode_and_ignoredBits h hi]

end EncodedZeros

/-- The encoder writes a register form's ignored bits as 0 (R107, R108). -/
theorem encode_register_forms_and {o : OpcodeMap} (h : o.wf = true) (d s1 s2 : Reg) :
    encode o (.movReg d s1) &&& 0x001F = 0 ∧ encode o (.cmpReg d s1) &&& 0x001F = 0 ∧
      encode o (.ldr d s1) &&& 0x001F = 0 ∧ encode o (.addReg d s1 s2) &&& 0x0003 = 0 ∧
      encode o (.subReg d s1 s2) &&& 0x0003 = 0 ∧ encode o (.shlReg d s1 s2) &&& 0x0003 = 0 :=
  have hmode (op : Opcode) (s2 : Reg) : modeBit (encodeRReg op d s1 s2) = true := modeBit_encodeRReg op d s1 s2
  ⟨encode_two_registers_and h rfl .mov rfl (by decide) (hmode _ _),
    encode_two_registers_and h rfl .cmp rfl (by decide) (hmode _ _),
    encode_two_registers_and h rfl .ldr rfl (by decide) (hmode _ _),
    encode_three_registers_and h rfl .add rfl (by decide) (hmode _ _),
    encode_three_registers_and h rfl .sub rfl (by decide) (hmode _ _),
    encode_three_registers_and h rfl .shl rfl (by decide) (hmode _ _)⟩

/-- The encoder writes `w[11]` of the A-class as 0 (R109). -/
theorem encode_address_forms_and {o : OpcodeMap} (h : o.wf = true) (a : Addr) :
    encode o (.lda a) &&& 0x0800 = 0 ∧ encode o (.load a) &&& 0x0800 = 0 ∧ encode o (.str a) &&& 0x0800 = 0 ∧
      encode o (.jmp a) &&& 0x0800 = 0 ∧ encode o (.beq a) &&& 0x0800 = 0 ∧ encode o (.bne a) &&& 0x0800 = 0 :=
  ⟨encode_address_and h rfl .lda rfl (by decide), encode_address_and h rfl .load rfl (by decide),
    encode_address_and h rfl .str rfl (by decide), encode_address_and h rfl .jmp rfl (by decide),
    encode_address_and h rfl .beq rfl (by decide), encode_address_and h rfl .bne rfl (by decide)⟩

/-- The encoder writes the twelve low bits of `HALT` as 0 (R109). -/
theorem encode_halt_and {o : OpcodeMap} (h : o.wf = true) : encode o .halt &&& 0x0FFF = 0 := by
  have hbits : ignoredBits o (encode o .halt) = 0x0FFF := by simp [ignoredBits, mnemonicOf_encode h (i := .halt) rfl, Instr.mnemonic]
  rw [← hbits, encode_and_ignoredBits h rfl]

/-- Settles O3: the decoder sees a Word as `encode_decode` leaves it, and the encoder leaves 0 there. -/
theorem ignoredBitsAreIgnored : Obligations.IgnoredBitsAreIgnored := by
  intro o h
  have named {m : Mnemonic} {w : Word} (hw : o.code m = w.extractLsb 15 12) : o.mnemonicOf (opcodeField w) = some m :=
    (OpcodeMap.mnemonicOf_eq_some h).mpr hw
  refine ⟨fun w hmode => ⟨?_, ?_⟩, fun w m hmem hw => ?_, fun w => decode_of_halt_opcode h, encode_register_forms_and h,
    encode_address_forms_and h, encode_halt_and h⟩
  · have clear (m : Mnemonic) (hmem : m ∈ [Mnemonic.mov, .cmp, .ldr]) (hw : o.code m = w.extractLsb 15 12) :=
      decode_clear_ignored h (by decide : ~~~0x001F = (0xFFE0 : Word)) (ignoredBits_of_two_registers (named hw) hmem hmode)
    rintro (hw | hw | hw)
    · exact clear .mov (by decide) hw
    · exact clear .cmp (by decide) hw
    · exact clear .ldr (by decide) hw
  · have clear (m : Mnemonic) (hmem : m ∈ [Mnemonic.add, .sub, .shl]) (hw : o.code m = w.extractLsb 15 12) :=
      decode_clear_ignored h (by decide : ~~~0x0003 = (0xFFFC : Word)) (ignoredBits_of_three_registers (named hw) hmem hmode)
    rintro (hw | hw | hw)
    · exact clear .add (by decide) hw
    · exact clear .sub (by decide) hw
    · exact clear .shl (by decide) hw
  · exact decode_clear_ignored h (by decide : ~~~0x0800 = (0xF7FF : Word)) (ignoredBits_of_address (named hw) hmem)

/-- Settles O4: nine Words of the table, each read off its own bits. -/
theorem sampleWordsDecode : Obligations.SampleWordsDecode := by
  unfold Obligations.SampleWordsDecode
  decide

end Sys2Proof
end

section
/-!
SUPPORT. One instruction at a time (spec/41_r_class.md to 43_z_class.md): the Words of its row of R92, its result and its frame on
every state.
-/
namespace Sys2Proof.Machine
open Sys2Proof.Claims

/-! The rows of R92 under the default numbering: the fixed bits are the opcode value and, in the R-class, the mode bit. -/

section Rows
variable {w value : Word} {form : Word → Instr}

theorem opcodeField_and (w mask : Word) (h : opcodeField mask = 15) : opcodeField (w &&& mask) = opcodeField w := by
  have hand : opcodeField (w &&& mask) = opcodeField w &&& opcodeField mask := BitVec.extractLsb'_and
  rw [hand, h]
  exact BitVec.and_allOnes

theorem opcodeField_of_row (h : w &&& 0xF000 = value) : opcodeField w = opcodeField value := by
  rw [← h, opcodeField_and w 0xF000 (by decide)]

theorem opcode_mode_of_row (h : w &&& 0xF100 = value) : opcodeField w = opcodeField value ∧ modeBit w = modeBit value := by
  rw [← h, opcodeField_and w 0xF100 (by decide)]
  exact ⟨rfl, by simp [modeBit]⟩

/-- A row of the R-class, by its mnemonic and its mode bit. The decoder's arm is read off by computation. -/
theorem row_of_mode (m : Mnemonic) (b : Bool) (hm : OpcodeMap.listing.mnemonicOf (opcodeField value) = some m)
    (hb : modeBit value = b)
    (hform : ∀ w, OpcodeMap.listing.mnemonicOf (opcodeField w) = some m → modeBit w = b →
      decode OpcodeMap.listing w = form w := by intro w hm hb; simp only [decode, decodeR, hm, hb]; rfl) :
    Row 0xF100 value form := fun w hw => by
  obtain ⟨hop, hmode⟩ := opcode_mode_of_row hw
  exact hform w (hop ▸ hm) (hmode.trans hb)

/-- A row of the A- or the Z-class, by its mnemonic. The decoder's arm is read off by computation. -/
theorem row_of_opcode (m : Mnemonic) (hm : OpcodeMap.listing.mnemonicOf (opcodeField value) = some m)
    (hform : ∀ w, OpcodeMap.listing.mnemonicOf (opcodeField w) = some m → decode OpcodeMap.listing w = form w := by
      intro w hm; simp only [decode, hm]; rfl) :
    Row 0xF000 value form := fun w hw => hform w (opcodeField_of_row hw ▸ hm)

theorem row_unnamed : Row 0xF000 0xD000 (fun w => .opcodeUnnamed w) := fun w hw => by
  have hop : opcodeField w = 13#4 := opcodeField_of_row hw
  have hnone : OpcodeMap.listing.mnemonicOf 13#4 = none := by decide
  simp [decode, hop, hnone]

theorem row_reserved : Row 0xE000 0xE000 (fun w => .opcodeReserved w) := fun w hw => by
  have hand : opcodeField w &&& 14 = 14 := by
    have h := congrArg opcodeField hw
    rwa [show opcodeField (w &&& 0xE000) = opcodeField w &&& 14 from BitVec.extractLsb'_and] at h
  have hop : ∀ v : Opcode, v &&& 14 = 14 → OpcodeMap.listing.mnemonicOf v = none ∧ ¬v ≤ 13#4 := by decide
  obtain ⟨hnone, hgt⟩ := hop _ hand
  simp [decode, hnone, hgt]

end Rows

/-! The three updates by which an instruction completes, as the statements' predicates say them. -/

section Updates
variable (s : State)

theorem writesRegister_setReg (d : Reg) (v : Word) : WritesRegister s (s.setReg d v).advance d v :=
  ⟨s.setReg_reg_same d v, fun _ hr => s.setReg_reg_ne v hr, rfl, rfl, fun _ => rfl, rfl, rfl, rfl⟩

theorem writesFlag_setFlag (b : Bool) : WritesFlag s (s.setFlag b).advance b :=
  ⟨rfl, fun _ => rfl, rfl, fun _ => rfl, rfl, rfl, rfl⟩

theorem writesPc_jump (addr : Addr) : WritesPc s (s.jump addr) addr.toNat :=
  ⟨rfl, fun _ => rfl, rfl, fun _ => rfl, rfl, rfl, rfl⟩

theorem writesPc_branch (taken : Bool) (addr : Addr) :
    WritesPc s (s.branch taken addr) (if taken then addr.toNat else s.pc + 1) :=
  ⟨rfl, fun _ => rfl, rfl, fun _ => rfl, rfl, rfl, rfl⟩

end Updates

/-! The arithmetic unit, as the statements read its results. -/

theorem addWord_toNat (a b : Word) : (addWord a b).toNat = (a.toNat + b.toNat) % 65536 := by
  simp [addWord_eq, BitVec.toNat_add]

theorem subWord_toNat (a b : Word) : ((subWord a b).toNat : Int) = (a.toNat - b.toNat : Int) % 65536 := by
  rw [subWord_eq, BitVec.toNat_sub]
  have hb := b.isLt
  omega

theorem shlWord_toNat {a : Word} (v : Word) (h : a.toNat ≤ 15) : (shlWord v a).toNat = v.toNat * 2 ^ a.toNat % 65536 := by
  simp [shlWord_of_le v h, Nat.shiftLeft_eq]

theorem equalFlag_toNat (a b : Word) : equalFlag a b = decide (a.toNat = b.toNat) := by
  simp [equalFlag, BitVec.toNat_inj, beq_eq_decide]

/-- `CMP` with an immediate compares the two signed readings, since sign extension keeps the value (R88, R155). -/
theorem equalFlag_sext16 (a : Word) (imm : Imm8) : equalFlag a (sext16 imm) = decide (a.toInt = imm.toInt) := by
  simp [equalFlag, ← sext16_toInt, BitVec.toInt_inj, beq_eq_decide]

/-! The results. -/

/-- Settles O10. -/
theorem movResult : Obligations.MovResult :=
  ⟨row_of_mode .mov false rfl rfl, row_of_mode .mov true rfl rfl,
    fun d _ s => ⟨_, rfl, writesRegister_setReg s d _⟩,
    fun d _ s => ⟨_, rfl, writesRegister_setReg s d _⟩⟩

/-- Settles O11: the flag is the equality of the patterns, which is that of either reading. -/
theorem cmpResult : Obligations.CmpResult :=
  ⟨row_of_mode .cmp false rfl rfl, row_of_mode .cmp true rfl rfl,
    fun d imm s => ⟨_, rfl, equalFlag_sext16 (s.reg d) imm ▸ writesFlag_setFlag s _⟩,
    fun d s1 s => ⟨_, rfl, equalFlag_toNat (s.reg d) (s.reg s1) ▸ writesFlag_setFlag s _⟩⟩

/-- Settles O12. -/
theorem addResult : Obligations.AddResult :=
  ⟨row_of_mode .add false rfl rfl, row_of_mode .add true rfl rfl,
    fun d imm s => ⟨_, _, rfl, writesRegister_setReg s d _, addWord_toNat (s.reg d) (sext16 imm)⟩,
    fun d s1 s2 s => ⟨_, _, rfl, writesRegister_setReg s d _, addWord_toNat (s.reg s1) (s.reg s2)⟩⟩

/-- Settles O13. -/
theorem subResult : Obligations.SubResult :=
  ⟨row_of_mode .sub false rfl rfl, row_of_mode .sub true rfl rfl,
    fun d imm s => ⟨_, _, rfl, writesRegister_setReg s d _, subWord_toNat (s.reg d) (sext16 imm)⟩,
    fun d s1 s2 s => ⟨_, _, rfl, writesRegister_setReg s d _, subWord_toNat (s.reg s1) (s.reg s2)⟩⟩

/-- Settles O14: beyond 15 both forms answer the free value `Config.shlOver`. -/
theorem shlResult : Obligations.ShlResult :=
  ⟨row_of_mode .shl false rfl rfl, row_of_mode .shl true rfl rfl,
    Config.shlOver,
    fun d _ s => ⟨_, _, rfl, writesRegister_setReg s d _, shlWord_toNat _, shlWord_of_gt _⟩,
    fun d _ _ s => ⟨_, _, rfl, writesRegister_setReg s d _, shlWord_toNat _, shlWord_of_gt _⟩⟩

/-- Settles O15. -/
theorem ldrResult : Obligations.LdrResult :=
  ⟨row_of_mode .ldr true rfl rfl,
    fun d _ s h => ⟨_, exec_ldr_of_lt h, writesRegister_setReg s d _⟩,
    fun _ _ s h => ⟨_, exec_ldr_of_le h, s.raise_takesFault _⟩⟩

/-- Settles O16. -/
theorem ldaResult : Obligations.LdaResult :=
  ⟨row_of_opcode .lda rfl,
    fun addr s => ⟨_, _, rfl, writesRegister_setReg s mbr _, zext16_toNat addr⟩⟩

/-- Settles O17. -/
theorem loadResult : Obligations.LoadResult :=
  ⟨row_of_opcode .load rfl,
    fun _ s h => ⟨_, exec_load_of_lt h, writesRegister_setReg s mbr _⟩,
    fun _ s h => ⟨_, exec_load_of_le h, s.raise_takesFault _⟩⟩

/-- Settles O18: the store is a write of canonical memory, which changes the read of its own address alone. -/
theorem strResult : Obligations.StrResult :=
  ⟨row_of_opcode .str rfl,
    fun addr s hmem h => ⟨_, exec_str_of_lt h, Memory.read_write_same hmem _ _, fun _ hb => Memory.read_write_ne hmem _ hb,
      rfl, fun _ => rfl, rfl, rfl, rfl, rfl, rfl⟩,
    fun _ s h => ⟨_, exec_str_of_le h, s.raise_takesFault _⟩⟩

/-- Settles O19. -/
theorem jmpResult : Obligations.JmpResult :=
  ⟨row_of_opcode .jmp rfl, fun addr s => ⟨_, rfl, writesPc_jump s addr⟩⟩

/-- Settles O20: `BNE` is taken on the negated flag. -/
theorem branchResult : Obligations.BranchResult :=
  ⟨row_of_opcode .beq rfl,
    row_of_opcode .bne rfl,
    fun addr s => ⟨_, rfl, writesPc_branch s s.flag addr⟩,
    fun addr s => ⟨_, rfl, by simpa using writesPc_branch s (!s.flag) addr⟩⟩

/-- Settles O22. -/
theorem illegalRowsTakeTheFault : Obligations.IllegalRowsTakeTheFault :=
  ⟨row_of_mode .ldr false rfl rfl,
    row_unnamed, row_reserved,
    fun _ s => ⟨⟨_, rfl, s.raise_takesFault _⟩, ⟨_, rfl, s.raise_takesFault _⟩, ⟨_, rfl, s.raise_takesFault _⟩⟩⟩

end Sys2Proof.Machine
end

section
/-!
SUPPORT. One step (spec/40_cycle.md section 1, spec/60_exceptions.md section 1): when it faults and with which record, what a fault
and what an instruction leave unchanged, and the invariant that every step keeps.
-/
namespace Sys2Proof.Machine
open Sys2Proof.Claims

/-- The constraints of R8, one by one. -/
theorem Config.wf_iff {c : Config} :
    c.wf = true ↔ 1 ≤ c.memSize ∧ c.memSize ≤ memMax ∧ c.codeBase < c.memSize ∧ c.opc.wf = true := by
  simp [Config.wf, and_assoc]

/-! The step by the PC and `halted`. -/

section
variable {s : State}

theorem step_of_halted (h : s.halted = true) : step s = .fault .halted := by simp [step, h]

theorem step_of_lt (hrun : s.halted = false) (hpc : s.pc < s.cfg.memSize) :
    step s = exec (decode s.cfg.opc (s.mem.read s.pc)) s := by
  simp [step, hrun, State.fetch_of_lt hpc]

theorem step_of_le (hrun : s.halted = false) (hpc : s.cfg.memSize ≤ s.pc) :
    step s = .next (s.raise (.memoryFault s.pc s.pc)) :=
  step_of_fetch_error hrun (State.fetch_of_le hpc)

end

/-- Settles O6: the model decodes to well-formed instructions only, so the step needs no check of its own. -/
theorem stepRunsDecodedInstruction : Obligations.StepRunsDecodedInstruction := fun _ _ hrun hpc hi _ =>
  hi ▸ step_of_lt hrun hpc

/-- Settles O8. -/
theorem haltedCoreTakesNoStep : Obligations.HaltedCoreTakesNoStep := fun s h => by
  have hstep := step_of_halted h
  refine ⟨fun t => by simp [hstep], hstep, fun d hd => ?_⟩
  subst hd
  simp [Session.step, hstep, nextState]

/-- Settles O9: either the fetch faults, which is a next state, or `exec` answers one. -/
theorem runningCoreAlwaysSteps : Obligations.RunningCoreAlwaysSteps := fun s hrun => by
  rcases Nat.lt_or_ge s.pc s.cfg.memSize with hpc | hpc
  · obtain ⟨t, ht, -⟩ := exec_effect (decode s.cfg.opc (s.mem.read s.pc)) s
    exact ⟨t, (step_of_lt hrun hpc).trans ht⟩
  · exact ⟨_, step_of_le hrun hpc⟩

/-- Settles O21: `HALT` leaves a halted state, which has no next state. -/
theorem haltResult : Obligations.HaltResult :=
  ⟨row_of_opcode .halt rfl fun w hm => by simp only [decode, hm],
    fun s => ⟨s.halt, rfl, rfl, rfl, rfl, fun _ => rfl, rfl, fun _ => rfl, rfl,
      fun u => by simp [step_of_halted s.halt_halted]⟩⟩

/-! What an instruction leaves in each field, from `Effect`. -/

section
variable {s t : State} {i : Instr}

theorem Effect.cfg_eq (h : Effect s i t) : t.cfg = s.cfg := by cases h <;> rfl

/-- Only `STR` writes memory, below `MEM_SIZE` (R57). -/
theorem Effect.mem_cases (h : Effect s i t) :
    t.mem = s.mem ∨
      ∃ addr, i = .str addr ∧ fieldAddress addr < s.cfg.memSize ∧ t.mem = s.mem.write (fieldAddress addr) (s.reg mbr) := by
  cases h with
  | store addr hi hlt => exact .inr ⟨addr, hi, hlt, rfl⟩
  | _ => exact .inl rfl

/-- The PC stays, advances, or becomes an address field (R135, R201, R236). -/
theorem Effect.pc_cases (h : Effect s i t) : t.pc = s.pc ∨ t.pc = s.pc + 1 ∨ ∃ addr, t.pc = fieldAddress addr := by
  cases h with
  | jump addr _ => exact .inr (.inr ⟨addr, rfl⟩)
  | branch addr taken _ =>
    rw [State.branch_pc]
    split
    · exact .inr (.inr ⟨addr, rfl⟩)
    · exact .inr (.inl rfl)
  | halt _ =>
    rw [State.halt_pc]
    split
    · exact .inr (.inl rfl)
    · exact .inl rfl
  | illegal _ _ => exact .inl rfl
  | memory _ _ _ => exact .inl rfl
  | _ => exact .inr (.inl rfl)

/-- An instruction takes a fault, which is then its whole effect, or leaves `fault` as it is and `halted` not lower (R29, R236). -/
theorem Effect.fault_cases (h : Effect s i t) :
    (∃ f, t = s.raise f) ∨ (t.fault = s.fault ∧ (s.halted = true → t.halted = true)) := by
  cases h with
  | illegal _ _ => exact .inl ⟨_, rfl⟩
  | memory _ _ _ => exact .inl ⟨_, rfl⟩
  | halt _ => exact .inr ⟨rfl, fun _ => rfl⟩
  | _ => exact .inr ⟨rfl, id⟩

/-- Where the decode and the data access are in order, there is no fault (R234). -/
theorem Effect.fault_eq_of_legal (h : Effect s i t) (hlegal : i.illegalWord = none)
    (hdata : ∀ a, dataAddress s i = some a → a < s.cfg.memSize) : t.fault = s.fault := by
  cases h with
  | illegal _ hill => simp [hlegal] at hill
  | memory a ha hle => exact absurd (hdata a ha) (Nat.not_lt.mpr hle)
  | _ => rfl

/-- An instruction that completes and is neither a transfer nor `HALT` advances the PC (R135). -/
theorem Effect.pc_eq_succ (h : Effect s i t) (hi : i.mnemonic ∉ [some .jmp, some .beq, some .bne, some .halt])
    (hfault : t.fault = none) : t.pc = s.pc + 1 := by
  cases h with
  | jump addr hj => exact absurd (by simp [hj, Instr.mnemonic]) hi
  | branch addr _ hb => rcases hb with rfl | rfl <;> exact absurd (by simp [Instr.mnemonic]) hi
  | halt hh => exact absurd (by simp [hh, Instr.mnemonic]) hi
  | illegal _ _ => simp at hfault
  | memory _ _ _ => simp at hfault
  | _ => rfl

end

theorem step_cfg_eq {s t : State} (h : step s = .next t) : t.cfg = s.cfg := by
  obtain ⟨-, ⟨-, rfl⟩ | ⟨-, hexec⟩⟩ := step_next h
  · rfl
  · exact (effect_of_exec hexec).cfg_eq

/-- Settles O33. -/
theorem parametersNeverChange : Obligations.ParametersNeverChange := fun _ _ => step_cfg_eq

/-- Settles O30: of the updates of `Effect` only the store writes memory, and it changes no other Word. -/
theorem memoryWrittenByStrOnly : Obligations.MemoryWrittenByStrOnly := by
  intro s t hmem hstep a hne
  obtain ⟨-, ⟨-, rfl⟩ | ⟨-, hexec⟩⟩ := step_next hstep
  · exact absurd rfl hne
  · obtain hsame | ⟨addr, hi, hlt, hwrite⟩ := (effect_of_exec hexec).mem_cases
    · exact absurd (by rw [hsame]) hne
    · rw [hwrite] at hne ⊢
      obtain rfl : fieldAddress addr = a := by_contra fun ha => hne (Memory.read_write_ne hmem _ (Ne.symm ha))
      exact ⟨addr, hi, rfl, hlt, Memory.read_write_same hmem _ _⟩

/-! Which step faults (R234, R235). -/

theorem accessAddress_eq_dataAddress (s : State) (i : Instr) : accessAddress s i = dataAddress s i := by cases i <;> rfl

/-- Taking a fault does not change the address that an instruction would use. -/
theorem dataAddress_raise (s : State) (f : FaultRecord) (i : Instr) : dataAddress (s.raise f) i = dataAddress s i := by
  cases i <;> rfl

/-- An illegal row's whole effect is its fault (R133). -/
theorem exec_of_illegal {i : Instr} {w : Word} (h : i.illegalWord = some w) (s : State) :
    exec i s = .next (s.raise (.illegalInstruction s.pc w)) := by
  cases i with
  | ldrNoImm _ => cases h; rfl
  | opcodeUnnamed _ => cases h; rfl
  | opcodeReserved _ => cases h; rfl
  | _ => simp [Instr.illegalWord] at h

/-- A data access at or beyond `MEM_SIZE` is a fault, the instruction's whole effect (R232). -/
theorem exec_of_data_fault {s : State} {i : Instr} {a : Nat} (h : dataAddress s i = some a) (hle : s.cfg.memSize ≤ a) :
    exec i s = .next (s.raise (.memoryFault s.pc a)) := by
  cases i with
  | ldr _ _ => cases h; exact exec_ldr_of_le hle
  | load _ => cases h; exact exec_load_of_le hle
  | str _ => cases h; exact exec_str_of_le hle
  | _ => simp [dataAddress] at h

/-- The rows of the table of R234 in the order of R235: the fetch, the decoded Word, the data access, or no fault. -/
theorem stepFault_cases (s : State) :
    (s.cfg.memSize ≤ s.pc ∧ stepFault s = some (.memoryFault s.pc s.pc)) ∨
    (s.pc < s.cfg.memSize ∧
      ((∃ w, (decode s.cfg.opc (s.mem.read s.pc)).illegalWord = some w ∧ stepFault s = some (.illegalInstruction s.pc w)) ∨
       (∃ a, dataAddress s (decode s.cfg.opc (s.mem.read s.pc)) = some a ∧ s.cfg.memSize ≤ a ∧
          stepFault s = some (.memoryFault s.pc a)) ∨
       ((decode s.cfg.opc (s.mem.read s.pc)).illegalWord = none ∧
          (∀ a, dataAddress s (decode s.cfg.opc (s.mem.read s.pc)) = some a → a < s.cfg.memSize) ∧ stepFault s = none))) := by
  simp only [stepFault, accessAddress_eq_dataAddress]
  rcases Nat.lt_or_ge s.pc s.cfg.memSize with hpc | hpc
  · refine .inr ⟨hpc, ?_⟩
    rw [if_neg (Nat.not_le.mpr hpc)]
    rcases hill : (decode s.cfg.opc (s.mem.read s.pc)).illegalWord with _ | w
    · rcases hdata : dataAddress s (decode s.cfg.opc (s.mem.read s.pc)) with _ | a
      · exact .inr (.inr ⟨rfl, by simp, by simp⟩)
      · rcases Nat.lt_or_ge a s.cfg.memSize with ha | ha
        · exact .inr (.inr ⟨rfl, by simpa using ha, by simp [ha]⟩)
        · exact .inr (.inl ⟨a, rfl, ha, by simp [ha]⟩)
    · exact .inl ⟨w, rfl, by simp⟩
  · exact .inl ⟨hpc, by rw [if_pos hpc]⟩

/-- From a state with no fault, the table says the fault after the step. -/
theorem step_fault_eq {s t : State} (hnone : s.fault = none) (h : step s = .next t) : t.fault = stepFault s := by
  obtain ⟨-, ⟨hle, rfl⟩ | ⟨hlt, hexec⟩⟩ := step_next h
  · obtain ⟨-, hfault⟩ | ⟨hlt, -⟩ := stepFault_cases s
    · rw [hfault, State.raise_fault]
    · omega
  · obtain ⟨hle, -⟩ | ⟨-, ⟨w, hill, hfault⟩ | ⟨a, hdata, hle, hfault⟩ | ⟨hlegal, hdata, hfault⟩⟩ := stepFault_cases s
    · omega
    · rw [exec_of_illegal hill] at hexec
      cases hexec
      rw [hfault, State.raise_fault]
    · rw [exec_of_data_fault hdata hle] at hexec
      cases hexec
      rw [hfault, State.raise_fault]
    · rw [(effect_of_exec hexec).fault_eq_of_legal hlegal hdata, hnone, hfault]

/-- A step that faults takes the fault and does nothing else (R236). -/
theorem step_eq_raise {s t : State} {f : FaultRecord} (hnone : s.fault = none) (h : step s = .next t) (hf : t.fault = some f) :
    t = s.raise f := by
  have hraise (g : FaultRecord) (hg : t = s.raise g) : t = s.raise f := by
    subst hg
    rw [State.raise_fault] at hf
    rw [Option.some.inj hf]
  obtain ⟨-, ⟨-, ht⟩ | ⟨-, hexec⟩⟩ := step_next h
  · exact hraise _ ht
  · obtain ⟨g, hg⟩ | ⟨hsame, -⟩ := (effect_of_exec hexec).fault_cases
    · exact hraise g hg
    · rw [hsame, hnone] at hf
      cases hf

/-- Settles O27. -/
theorem faultsArePrecise : Obligations.FaultsArePrecise := fun _ _ hnone hstep _ hf => step_eq_raise hnone hstep hf

/-- Settles O26: with 2048 Words an address field is always below `MEM_SIZE`, and so is any PC but 2048. -/
theorem faultsAsTheTableSays : Obligations.FaultsAsTheTableSays := by
  refine ⟨fun _ _ => step_fault_eq, fun s hinv hsize => ⟨fun addr hdec hpc => ?_, fun hfault => ?_⟩⟩
  · have hlegal : (decode s.cfg.opc (s.mem.read s.pc)).illegalWord = none := by rcases hdec with h | h <;> rw [h] <;> rfl
    have hdata : dataAddress s (decode s.cfg.opc (s.mem.read s.pc)) = some addr.toNat := by rcases hdec with h | h <;> rw [h] <;> rfl
    have haddr := addr.isLt
    obtain ⟨hle, -⟩ | ⟨-, ⟨w, hill, -⟩ | ⟨a, ha, hle, -⟩ | ⟨-, -, hfault⟩⟩ := stepFault_cases s
    · omega
    · simp [hlegal] at hill
    · rw [hdata] at ha
      cases ha
      omega
    · exact hfault
  · have hle := hinv.pc_le
    obtain ⟨hge, -⟩ | ⟨hlt, ⟨w, -, hf⟩ | ⟨a, -, hge, hf⟩ | ⟨-, -, hf⟩⟩ := stepFault_cases s
    · exact Nat.le_antisymm hle (hsize ▸ hge)
    · simp [hf] at hfault
    · obtain rfl : a = s.pc := by simpa [hf] using hfault
      omega
    · simp [hf] at hfault

/-- A legal Word is one that R231 does not list. -/
theorem illegalWord_decode_isSome {o : OpcodeMap} (h : o.wf = true) (w : Word) :
    (decode o w).illegalWord = some w ↔ IllegalWord o w := by
  change _ ↔ (opcodeField w = 14#4 ∨ opcodeField w = 15#4 ∨ (opcodeField w ≤ 13#4 ∧ ∀ m, o.code m ≠ opcodeField w) ∨
    (opcodeField w = o.code .ldr ∧ modeBit w = false))
  rcases hm : o.mnemonicOf (opcodeField w) with _ | m
  · have hnot := OpcodeMap.mnemonicOf_eq_none.mp hm
    have hill : (decode o w).illegalWord = some w := by
      simp only [decode, hm]
      split <;> rfl
    have hrange : opcodeField w = 14#4 ∨ opcodeField w = 15#4 ∨ opcodeField w ≤ 13#4 := by bv_omega
    exact ⟨fun _ => hrange.imp_right (Or.imp_right fun hle => .inl ⟨hle, hnot⟩), fun _ => hill⟩
  · have hcode : o.code m = opcodeField w := (OpcodeMap.mnemonicOf_eq_some h).mp hm
    have hle : opcodeField w ≤ 13#4 := hcode ▸ OpcodeMap.code_le h m
    have hldr : opcodeField w = o.code .ldr ↔ m = .ldr := by
      rw [← hcode]
      exact ⟨OpcodeMap.code_inj h, fun hm => by rw [hm]⟩
    have hlist : (opcodeField w = 14#4 ∨ opcodeField w = 15#4 ∨ (opcodeField w ≤ 13#4 ∧ ∀ m, o.code m ≠ opcodeField w) ∨
        (opcodeField w = o.code .ldr ∧ modeBit w = false)) ↔ m = .ldr ∧ modeBit w = false := by
      have h14 : opcodeField w ≠ 14#4 := by bv_omega
      have h15 : opcodeField w ≠ 15#4 := by bv_omega
      have hnamed : ¬ ∀ m, o.code m ≠ opcodeField w := fun hnot => hnot m hcode
      simp [h14, h15, hnamed, hldr]
    rw [hlist]
    cases hmode : modeBit w <;> cases m <;> simp [decode, hm, decodeR, hmode, Instr.illegalWord]

/-- Settles O5: the table of faults, and that an illegal row keeps the fetched Word. -/
theorem illegalInstructionExactly : Obligations.IllegalInstructionExactly := by
  intro s hwf hrun hnone hpc
  have record {t : State} {pc : Nat} {w : Word} (hstep : step s = .next t) (hf : t.fault = some (.illegalInstruction pc w)) :
      (decode s.cfg.opc (s.mem.read s.pc)).illegalWord = some w ∧ pc = s.pc := by
    rw [step_fault_eq hnone hstep] at hf
    obtain ⟨hle, -⟩ | ⟨-, ⟨w', hill, hfault⟩ | ⟨a, -, -, hfault⟩ | ⟨-, -, hfault⟩⟩ := stepFault_cases s
    · omega
    · rw [hf] at hfault
      cases hfault
      exact ⟨hill, rfl⟩
    · simp [hf] at hfault
    · simp [hf] at hfault
  refine ⟨?_, fun t pc w hstep hf => ?_⟩
  · rw [← illegalWord_decode_isSome (Config.wf_iff.mp hwf).2.2.2]
    constructor
    · rintro ⟨t, hstep, hf, -⟩
      exact (record hstep hf).1
    · intro hill
      exact ⟨_, (step_of_lt hrun hpc).trans (exec_of_illegal hill s), s.raise_takesFault _⟩
  · obtain ⟨hill, hpc⟩ := record hstep hf
    exact ⟨hpc, illegalWord_decode hill⟩

/-! The invariant. -/

/-- A running core has no fault (R30). -/
theorem State.Inv.fault_eq_none {s : State} (h : s.Inv) (hrun : s.halted = false) : s.fault = none := by
  by_contra hne
  simp [h.fault_halted (Option.isSome_iff_ne_none.mpr hne)] at hrun

theorem State.Inv.memSize_le {s : State} (h : s.Inv) : s.cfg.memSize ≤ memMax :=
  (Config.wf_iff.mp h.cfg_wf).2.1

theorem State.Inv.raise {s : State} (h : s.Inv) (f : FaultRecord) : (s.raise f).Inv :=
  ⟨h.cfg_wf, h.mem_wf, h.mem_below, h.pc_le, fun _ => rfl⟩

/-- An instruction fetched below `MEM_SIZE` keeps the invariant: its store is in range and in canonical form, its PC is at most the
next one or an 11-bit address, and its fault halts. -/
theorem Effect.inv {s t : State} {i : Instr} (h : Effect s i t) (hinv : s.Inv) (hpc : s.pc < s.cfg.memSize) : t.Inv where
  cfg_wf := by rw [h.cfg_eq]; exact hinv.cfg_wf
  mem_wf := by
    obtain hsame | ⟨addr, -, -, hwrite⟩ := h.mem_cases
    · rw [hsame]; exact hinv.mem_wf
    · rw [hwrite]; exact Memory.wf_write hinv.mem_wf _ _
  mem_below := by
    rw [h.cfg_eq]
    obtain hsame | ⟨addr, -, hlt, hwrite⟩ := h.mem_cases
    · rw [hsame]; exact hinv.mem_below
    · rw [hwrite]; exact Memory.below_write hinv.mem_below hlt _
  pc_le := by
    have hsize := hinv.memSize_le
    obtain hpc' | hpc' | ⟨addr, hpc'⟩ := h.pc_cases
    · omega
    · omega
    · rw [hpc']; exact Nat.le_of_lt addr.isLt
  fault_halted := by
    obtain ⟨f, rfl⟩ | ⟨hfault, hhalted⟩ := h.fault_cases
    · exact fun _ => rfl
    · rw [hfault]; exact fun hf => hhalted (hinv.fault_halted hf)

/-- Settles O23: a fetch fault writes `fault` and `halted` together, and every update of `Effect` keeps the invariant. -/
theorem stepKeepsInvariant : Obligations.StepKeepsInvariant := by
  intro s t hinv hstep
  obtain ⟨-, ⟨-, rfl⟩ | ⟨hpc, hexec⟩⟩ := step_next hstep
  · exact hinv.raise _
  · exact (effect_of_exec hexec).inv hinv hpc

/-- Settles O25: the record is that of the table, and the state it stands in differs from the one before by `fault` and `halted`
only, so the record can be read off it. -/
theorem stepKeepsFaultPrecise : Obligations.StepKeepsFaultPrecise := by
  intro s t hinv hstep f hf
  have hnone : s.fault = none := hinv.fault_eq_none (step_next hstep).1
  obtain rfl := step_eq_raise hnone hstep hf
  have htable : some f = stepFault s := step_fault_eq hnone hstep
  obtain ⟨hle, hfault⟩ | ⟨hlt, ⟨w, hill, hfault⟩ | ⟨a, hdata, hle, hfault⟩ | ⟨-, -, hfault⟩⟩ := stepFault_cases s
  all_goals
    rw [hfault] at htable
    cases htable
  · exact ⟨rfl, hle, fun hne => absurd rfl hne⟩
  · obtain rfl := illegalWord_decode hill
    exact ⟨rfl, hlt, rfl, hill⟩
  · exact ⟨rfl, hle, fun _ => ⟨hlt, (dataAddress_raise s _ _).trans hdata⟩⟩

end Sys2Proof.Machine
end

section
/-!
SUPPORT. What an instruction depends on (spec/10_state.md section 1, spec/20_memory.md section 2): two executions that start apart in
the registers, in the PC or in memory.
-/
namespace Sys2Proof.Machine
open Sys2Proof.Claims

/-- An instruction leaves every register but the one of the table (R24). -/
theorem exec_reg_of_not_written {i : Instr} {s t : State} {r : Reg} (h : exec i s = .next t) (hr : writtenRegister i ≠ some r) :
    t.reg r = s.reg r := by
  have keeps {d : Reg} (hd : writtenRegister i = some d) (v : Word) : (s.setReg d v).advance.reg r = s.reg r :=
    s.setReg_reg_ne v fun hrd => hr (hrd ▸ hd)
  cases i with
  | ldr d a =>
    rcases Nat.lt_or_ge (wordAddress (s.reg a)) s.cfg.memSize with ha | ha
    · rw [exec_ldr_of_lt ha] at h; cases h; exact keeps rfl _
    · rw [exec_ldr_of_le ha] at h; cases h; rfl
  | load addr =>
    rcases Nat.lt_or_ge (fieldAddress addr) s.cfg.memSize with ha | ha
    · rw [exec_load_of_lt ha] at h; cases h; exact keeps rfl _
    · rw [exec_load_of_le ha] at h; cases h; rfl
  | str addr =>
    rcases Nat.lt_or_ge (fieldAddress addr) s.cfg.memSize with ha | ha
    · rw [exec_str_of_lt ha] at h; cases h; rfl
    · rw [exec_str_of_le ha] at h; cases h; rfl
  | movImm _ _ => cases h; exact keeps rfl _
  | movReg _ _ => cases h; exact keeps rfl _
  | addImm _ _ => cases h; exact keeps rfl _
  | addReg _ _ _ => cases h; exact keeps rfl _
  | subImm _ _ => cases h; exact keeps rfl _
  | subReg _ _ _ => cases h; exact keeps rfl _
  | shlImm _ _ => cases h; exact keeps rfl _
  | shlReg _ _ _ => cases h; exact keeps rfl _
  | lda _ => cases h; exact keeps rfl _
  | _ => cases h; rfl

/-! Another register file. -/

/-- From `s` and from `s` with the register file `x`, the instruction comes out the same but for the registers, and the register it
writes, if it writes one, gets the same value. -/
def SameButRegs (i : Instr) (s : State) (x : Vector Word 8) : Prop :=
  ∃ t u, exec i s = .next t ∧ exec i { s with regs := x } = .next u ∧ { u with regs := t.regs } = t ∧
    ∀ r, writtenRegister i = some r → u.reg r = t.reg r ∨ (t.reg r = s.reg r ∧ u.reg r = { s with regs := x }.reg r)

section
variable {i : Instr} {s : State} {x : Vector Word 8}

theorem SameButRegs.of_write {d : Reg} {v v' : Word} (hi : writtenRegister i = some d)
    (ht : exec i s = .next (s.setReg d v).advance)
    (hu : exec i { s with regs := x } = .next (({ s with regs := x } : State).setReg d v').advance) (hv : v' = v) :
    SameButRegs i s x := by
  refine ⟨_, _, ht, hu, rfl, fun r hr => .inl ?_⟩
  obtain rfl : d = r := Option.some.inj (hi.symm.trans hr)
  simp [hv]

theorem SameButRegs.of_no_write {t u : State} (hi : writtenRegister i = none) (ht : exec i s = .next t)
    (hu : exec i { s with regs := x } = .next u) (heq : { u with regs := t.regs } = t) : SameButRegs i s x :=
  ⟨t, u, ht, hu, heq, fun r hr => by simp [hi] at hr⟩

theorem SameButRegs.of_compare {b b' : Bool} (hi : writtenRegister i = none) (ht : exec i s = .next (s.setFlag b).advance)
    (hu : exec i { s with regs := x } = .next (({ s with regs := x } : State).setFlag b').advance) (hb : b' = b) :
    SameButRegs i s x :=
  .of_no_write hi ht hu (by rw [hb]; rfl)

theorem SameButRegs.of_raise {f : FaultRecord} (ht : exec i s = .next (s.raise f))
    (hu : exec i { s with regs := x } = .next (({ s with regs := x } : State).raise f)) : SameButRegs i s x :=
  ⟨_, _, ht, hu, rfl, fun _ _ => .inr ⟨rfl, rfl⟩⟩

end

/-- An instruction depends on no register but those that the table lists as read (R24). -/
theorem exec_sameButRegs (i : Instr) (s : State) (x : Vector Word 8)
    (h : ∀ r, readsRegister r i → ({ s with regs := x } : State).reg r = s.reg r) : SameButRegs i s x := by
  cases i with
  | movImm _ _ => exact .of_write rfl rfl rfl rfl
  | movReg _ a => exact .of_write rfl rfl rfl (h a rfl)
  | cmpImm d _ => exact .of_compare rfl rfl rfl (by rw [h d rfl])
  | cmpReg d a => exact .of_compare rfl rfl rfl (by rw [h d (.inl rfl), h a (.inr rfl)])
  | addImm d _ => exact .of_write rfl rfl rfl (by rw [h d rfl])
  | addReg _ a b => exact .of_write rfl rfl rfl (by rw [h a (.inl rfl), h b (.inr rfl)])
  | subImm d _ => exact .of_write rfl rfl rfl (by rw [h d rfl])
  | subReg _ a b => exact .of_write rfl rfl rfl (by rw [h a (.inl rfl), h b (.inr rfl)])
  | shlImm d _ => exact .of_write rfl rfl rfl (by rw [h d rfl])
  | shlReg _ a b => exact .of_write rfl rfl rfl (by rw [h a (.inl rfl), h b (.inr rfl)])
  | ldr d a =>
    have ha := h a rfl
    rcases Nat.lt_or_ge (wordAddress (s.reg a)) s.cfg.memSize with hlt | hle
    · exact .of_write rfl (exec_ldr_of_lt hlt) (exec_ldr_of_lt (s := { s with regs := x }) (by rw [ha]; exact hlt)) (by rw [ha])
    · refine .of_raise (exec_ldr_of_le hle) ?_
      rw [exec_ldr_of_le (s := { s with regs := x }) (by rw [ha]; exact hle), ha]
  | load addr =>
    rcases Nat.lt_or_ge (fieldAddress addr) s.cfg.memSize with hlt | hle
    · exact .of_write rfl (exec_load_of_lt hlt) (exec_load_of_lt (s := { s with regs := x }) hlt) rfl
    · exact .of_raise (exec_load_of_le hle) (exec_load_of_le (s := { s with regs := x }) hle)
  | str addr =>
    rcases Nat.lt_or_ge (fieldAddress addr) s.cfg.memSize with hlt | hle
    · exact .of_no_write rfl (exec_str_of_lt hlt) (exec_str_of_lt (s := { s with regs := x }) hlt) (by rw [h mbr rfl])
    · exact .of_raise (exec_str_of_le hle) (exec_str_of_le (s := { s with regs := x }) hle)
  | lda _ => exact .of_write rfl rfl rfl rfl
  | _ => exact .of_no_write rfl rfl rfl rfl

/-! Another PC and another memory. -/

/-- With another PC, and another memory that agrees at the data address (R57), an instruction leaves the same registers (R24); and with
the same PC it comes out the same but for memory. -/
theorem exec_with_pc_mem (i : Instr) (s : State) (p : Nat) (m : Memory)
    (h : ∀ a, accessAddress s i = some a → m.read a = s.mem.read a) :
    ∃ t u, exec i s = .next t ∧ exec i { s with pc := p, mem := m } = .next u ∧ SameRegs t u ∧
      (p = s.pc → { u with mem := t.mem } = t) := by
  cases i with
  | ldr d a =>
    rcases Nat.lt_or_ge (wordAddress (s.reg a)) s.cfg.memSize with ha | ha
    · refine ⟨_, _, exec_ldr_of_lt ha, exec_ldr_of_lt (s := { s with pc := p, mem := m }) ha, ?_⟩
      rw [show m.read (wordAddress (({ s with pc := p, mem := m } : State).reg a)) = _ from h _ rfl]
      exact ⟨fun _ => rfl, fun hp => by subst hp; rfl⟩
    · exact ⟨_, _, exec_ldr_of_le ha, exec_ldr_of_le (s := { s with pc := p, mem := m }) ha, fun _ => rfl,
        fun hp => by subst hp; rfl⟩
  | load addr =>
    rcases Nat.lt_or_ge (fieldAddress addr) s.cfg.memSize with ha | ha
    · refine ⟨_, _, exec_load_of_lt ha, exec_load_of_lt (s := { s with pc := p, mem := m }) ha, ?_⟩
      rw [show m.read (fieldAddress addr) = _ from h _ rfl]
      exact ⟨fun _ => rfl, fun hp => by subst hp; rfl⟩
    · exact ⟨_, _, exec_load_of_le ha, exec_load_of_le (s := { s with pc := p, mem := m }) ha, fun _ => rfl,
        fun hp => by subst hp; rfl⟩
  | str addr =>
    rcases Nat.lt_or_ge (fieldAddress addr) s.cfg.memSize with ha | ha
    · exact ⟨_, _, exec_str_of_lt ha, exec_str_of_lt (s := { s with pc := p, mem := m }) ha, fun _ => rfl,
        fun hp => by subst hp; rfl⟩
    · exact ⟨_, _, exec_str_of_le ha, exec_str_of_le (s := { s with pc := p, mem := m }) ha, fun _ => rfl,
        fun hp => by subst hp; rfl⟩
  | _ => exact ⟨_, _, rfl, rfl, fun _ => rfl, fun hp => by subst hp; rfl⟩

/-- No instruction uses the PC as a register (R24). -/
theorem exec_pc_unread (i : Instr) (s : State) (p : Nat) :
    ∃ t u, exec i s = .next t ∧ exec i { s with pc := p } = .next u ∧ SameRegs t u := by
  obtain ⟨t, u, ht, hu, hregs, -⟩ := exec_with_pc_mem i s p s.mem fun _ _ => rfl
  exact ⟨t, u, ht, hu, hregs⟩

/-- Settles O31. -/
theorem registerUseAsTheTableSays : Obligations.RegisterUseAsTheTableSays :=
  ⟨fun _ _ _ h _ hr => by_contra fun hw => hr (exec_reg_of_not_written h hw), exec_sameButRegs, exec_pc_unread⟩

/-- Settles O32: with the same fetched Word, both cores execute the same instruction. -/
theorem stepSeesOnlyItsTwoWords : Obligations.StepSeesOnlyItsTwoWords := by
  intro s m hrun ⟨hfetch, hdata⟩
  rcases Nat.lt_or_ge s.pc s.cfg.memSize with hpc | hpc
  · obtain ⟨t, u, ht, hu, -, heq⟩ := exec_with_pc_mem _ s s.pc m hdata
    refine ⟨t, u, (step_of_lt hrun hpc).trans ht, ?_, heq rfl⟩
    rw [step_of_lt (s := { s with mem := m }) hrun hpc]
    exact hfetch ▸ hu
  · exact ⟨_, _, step_of_le hrun hpc, step_of_le (s := { s with mem := m }) hrun hpc, rfl⟩

end Sys2Proof.Machine
end

section
/-!
SUPPORT. Runs (spec/40_cycle.md section 2): how they compose and end, the steps around a transfer, a store and the last address, the
run through zero Words, and the debugger's `continue`.
-/
namespace Sys2Proof.Machine
open Sys2Proof.Claims

/-! Composition and end. -/

/-- A state without a next state is the end of its run (R139). -/
theorem runFor_of_no_next {s : State} (h : nextState (step s) = none) (n : Nat) : runFor n s = s := by
  cases n with
  | zero => rfl
  | succ n => simp [runFor, h]

theorem runFor_add (s : State) (m n : Nat) : runFor (m + n) s = runFor n (runFor m s) := by
  induction m generalizing s with
  | zero => simp
  | succ m ih =>
    rw [Nat.add_right_comm]
    rcases h : nextState (step s) with _ | t
    · rw [runFor_of_no_next h, runFor_of_no_next h, runFor_of_no_next h]
    · simp only [runFor, h]
      exact ih t

theorem runFor_add_of_halted {s : State} {m : Nat} (h : (runFor m s).halted = true) (n : Nat) :
    runFor (m + n) s = runFor m s := by
  rw [runFor_add, runFor_of_halted h]

theorem EndsIn.unique {s t u : State} (ht : EndsIn s t) (hu : EndsIn s u) : t = u := by
  obtain ⟨hthalted, m, rfl⟩ := ht
  obtain ⟨huhalted, n, rfl⟩ := hu
  rcases Nat.le_total m n with h | h
  · obtain ⟨k, rfl⟩ := Nat.exists_eq_add_of_le h
    exact (runFor_add_of_halted hthalted k).symm
  · obtain ⟨k, rfl⟩ := Nat.exists_eq_add_of_le h
    exact runFor_add_of_halted huhalted k

/-- Settles O38: a halted state has no next state, so fuel beyond the end is not used. -/
theorem runEndIsUnique : Obligations.RunEndIsUnique :=
  ⟨fun _ _ _ => EndsIn.unique, fun _ _ n h => runFor_add_of_halted h n, runFor_add⟩

/-! Steps around a transfer, a store and the last address. -/

/-- A transfer that is taken writes the PC, unchecked, and nothing else (R201). -/
theorem exec_of_taken {i : Instr} {s : State} {addr : Addr}
    (h : i = .jmp addr ∨ (i = .beq addr ∧ s.flag = true) ∨ (i = .bne addr ∧ s.flag = false)) :
    exec i s = .next { s with pc := addr.toNat } := by
  rcases h with rfl | ⟨rfl, hflag⟩ | ⟨rfl, hflag⟩
  · rfl
  · exact congrArg (fun b => Host.Outcome.next (s.branch b addr)) hflag
  · exact congrArg (fun b => Host.Outcome.next (s.branch (!b) addr)) hflag

/-- Settles O34: the transfer itself checks nothing, and the fetch at its target does. -/
theorem transferOutOfRangeFaultsOneStepLater : Obligations.TransferOutOfRangeFaultsOneStepLater := by
  intro s addr hrun hpc haddr htaken
  have hfirst : step s = .next { s with pc := addr.toNat } := (step_of_lt hrun hpc).trans (exec_of_taken htaken)
  have hsecond := step_of_le (s := { s with pc := addr.toNat }) hrun haddr
  refine ⟨hfirst, ?_⟩
  rw [runFor_next hfirst, runFor_next hsecond]
  rfl

/-- Settles O35: memory after the store reads as `x[7]` at the address that the next step fetches from. -/
theorem storedWordIsFetchedNext : Obligations.StoredWordIsFetchedNext := by
  intro s addr hmem hrun hpc hdec haddr hnext
  have hlt : fieldAddress addr < s.cfg.memSize := by rw [fieldAddress, haddr]; exact hnext
  refine ⟨_, (step_of_lt hrun hpc).trans (hdec ▸ exec_str_of_lt hlt), haddr.symm, ?_⟩
  rw [step_of_lt (by exact hrun) (by exact hnext)]
  have hread : (s.mem.write (fieldAddress addr) (s.reg mbr)).read (s.pc + 1) = s.reg mbr := by
    rw [← haddr]
    exact Memory.read_write_same hmem _ _
  simp only [hread]
  rfl

/-- Settles O36: the instruction advances the PC past the last address, and the fetch there is out of range. -/
theorem pcDoesNotWrap : Obligations.PcDoesNotWrap := by
  intro s t hrun hnone hsize hpc hi hstep hfault
  have hlt : s.pc < s.cfg.memSize := by omega
  have heffect := effect_of_exec ((step_of_lt hrun hlt).symm.trans hstep)
  have hpc' : t.pc = s.cfg.memSize := by rw [heffect.pc_eq_succ hi hfault]; omega
  have hrun' : t.halted = false := by
    rw [← Bool.not_eq_true, heffect.halted_iff hrun hnone]
    rintro (hne | hhalt)
    · exact hne hfault
    · simp [hhalt, Instr.mnemonic] at hi
  have hnext := step_of_le hrun' (by rw [step_cfg_eq hstep, hpc'])
  rw [hpc'] at hnext
  exact ⟨hpc', hnext⟩

/-! The run through zero Words (R111). -/

/-- Under the default numbering the zero Word is `MOV r0,#0`. -/
theorem step_of_zero_word {s : State} (hrun : s.halted = false) (hopc : s.cfg.opc = OpcodeMap.listing)
    (hpc : s.pc < s.cfg.memSize) (hzero : s.mem.read s.pc = 0) : step s = .next (s.setReg 0 0).advance := by
  have hdec : decode OpcodeMap.listing 0 = .movImm 0 0 := by decide
  rw [step_of_lt hrun hpc, hopc, hzero, hdec]
  rfl

theorem State.setReg_setReg (s : State) (d : Reg) (v : Word) : (s.setReg d v).setReg d v = s.setReg d v :=
  State.ext_reg (fun r => by by_cases hr : r = d <;> simp [State.setReg_reg, hr]) rfl rfl rfl rfl rfl rfl

/-- After each step on the way, register 0 is cleared, the PC has advanced, and nothing else has changed. -/
theorem runFor_zero_words (k : Nat) {s : State} (hrun : s.halted = false) (hopc : s.cfg.opc = OpcodeMap.listing)
    (hzero : ∀ a, s.pc ≤ a → a < s.cfg.memSize → s.mem.read a = 0) (hk : s.pc + (k + 1) ≤ s.cfg.memSize) :
    runFor (k + 1) s = { s.setReg 0 0 with pc := s.pc + (k + 1) } := by
  induction k generalizing s with
  | zero => rw [runFor_next (step_of_zero_word hrun hopc (by omega) (hzero _ le_rfl (by omega)))]; rfl
  | succ k ih =>
    have hrest := ih (s := (s.setReg 0 0).advance) hrun hopc (fun a ha => hzero a (Nat.le_of_succ_le ha))
      (by change s.pc + 1 + (k + 1) ≤ s.cfg.memSize; omega)
    have hset : (s.setReg 0 0).advance.setReg 0 0 = (s.setReg 0 0).advance := congrArg State.advance (s.setReg_setReg 0 0)
    rw [runFor_next (step_of_zero_word hrun hopc (by omega) (hzero _ le_rfl (by omega))), hrest, hset]
    simp only [State.advance, State.setReg_pc]
    congr 1
    omega

/-- Settles O37: the run is at `MEM_SIZE` after `MEM_SIZE - PC` steps, with register 0 cleared, and the fetch there faults. -/
theorem zeroWordsClearR0UntilTheTop : Obligations.ZeroWordsClearR0UntilTheTop := by
  intro s hrun hopc hpc hzero
  refine ⟨fun k hk1 hk => ?_, _, rfl, ?_⟩
  · obtain ⟨k, rfl⟩ := Nat.exists_eq_add_of_le' hk1
    rw [runFor_zero_words k hrun hopc hzero (by omega)]
    exact ⟨s.setReg_reg_same 0 0, fun r hr => s.setReg_reg_ne 0 hr, rfl, rfl, hrun, fun _ => rfl⟩
  · obtain ⟨k, hk⟩ := Nat.exists_eq_add_of_lt hpc
    have htop : s.cfg.memSize - s.pc = k + 1 := by omega
    have hend : s.pc + (k + 1) = s.cfg.memSize := by omega
    rw [htop, runFor_add, runFor_zero_words k hrun hopc hzero (by omega), hend]
    rw [runFor_next (step_of_le (by exact hrun) (by exact le_rfl)), runFor_zero]
    exact ⟨s.setReg_reg_same 0 0, fun r hr => s.setReg_reg_ne 0 hr, rfl, rfl, rfl, rfl, fun _ => rfl, rfl⟩

/-! The debugger. -/

/-- A session's step is the core's. -/
theorem Session.step_state {d : Session} {t : State} (h : Machine.step d.state = .next t) : d.step.state = t := by
  simp [Session.step, h, nextState]

/-- Settles O45: each step of `continue` is one step of the run, and on a halted session neither moves. -/
theorem continueRunsWithinBudget : Obligations.ContinueRunsWithinBudget := by
  intro n d
  induction n generalizing d with
  | zero => exact ⟨d, rfl, rfl⟩
  | succ n ih =>
    rcases hrun : d.state.halted with _ | _
    · obtain ⟨t, ht⟩ := runningCoreAlwaysSteps d.state hrun
      obtain ⟨e, hstate, hresult⟩ := ih d.step
      refine ⟨e, ?_, ?_⟩
      · rw [hstate, Session.step_state ht, runFor_next ht]
      · simpa [Session.continueFor, hrun] using hresult
    · exact ⟨d, (runFor_of_halted hrun _).symm, by simp [Session.continueFor, hrun]⟩

end Sys2Proof.Machine
end

section
/-!
SUPPORT. Layouts and what they give the core (spec/20_memory.md section 3), the start of a run (spec/70_reset_and_hazards.md), and the
debugger's session.
-/
namespace Sys2Proof.Machine
open Sys2Proof.Claims

/-! Layouts (R58, R59). -/

theorem overlaps_iff (x y : LayoutSection) :
    x.overlaps y = true ↔ ∃ a, (x.base ≤ a ∧ a < x.base + x.length) ∧ (y.base ≤ a ∧ a < y.base + y.length) := by
  simp only [LayoutSection.overlaps, decide_eq_true_eq]
  constructor
  · exact fun h => ⟨max x.base y.base, by omega⟩
  · rintro ⟨a, ha⟩
    omega

/-- No section offends exactly if each is within the total size and overlaps none of the later ones. -/
theorem offendingSection_eq_none (n : Nat) (xs : List LayoutSection) :
    offendingSection n xs = none ↔
      (∀ x ∈ xs, x.base + x.length ≤ n) ∧
      xs.Pairwise fun x y => ¬∃ a, (x.base ≤ a ∧ a < x.base + x.length) ∧ (y.base ≤ a ∧ a < y.base + y.length) := by
  induction xs with
  | nil => simp [offendingSection]
  | cons x rest ih =>
    have hcons : offendingSection n (x :: rest) = none ↔
        x.base + x.length ≤ n ∧ (∀ y ∈ rest, ¬x.overlaps y = true) ∧ offendingSection n rest = none := by
      rw [offendingSection]
      split
      next hgt => simp [Nat.not_le.mpr hgt]
      next hle =>
        rcases hfind : rest.find? x.overlaps with _ | y
        · exact ⟨fun h => ⟨Nat.not_lt.mp hle, List.find?_eq_none.mp hfind, h⟩, fun h => h.2.2⟩
        · have hy : ¬∀ y ∈ rest, ¬x.overlaps y = true := fun h => h y (List.mem_of_find?_eq_some hfind) (List.find?_some hfind)
          simp only [hy, false_and, and_false, reduceCtorEq]
    simp only [overlaps_iff] at hcons
    rw [hcons, ih, List.forall_mem_cons, List.pairwise_cons]
    tauto

theorem check_eq_ok_iff (l : Layout) : l.check = .ok () ↔ offendingSection l.totalSize l.sections = none := by
  unfold Layout.check
  split <;> simp_all

/-- Settles O43. -/
theorem layoutValidExactly : Obligations.LayoutValidExactly := fun l =>
  (check_eq_ok_iff l).trans (offendingSection_eq_none _ _)

/-- What `resolve` answers is a section of the layout with that name. -/
theorem exists_section_of_resolve {l : Layout} {n : SectionName} {base length : Nat} (h : l.resolve n = some (base, length)) :
    ∃ x ∈ l.sections, x.name = n ∧ x.base = base ∧ x.length = length := by
  simp only [Layout.resolve, Option.map_eq_some_iff, Prod.mk.injEq] at h
  obtain ⟨x, hfind, hbase, hlength⟩ := h
  exact ⟨x, List.mem_of_find?_eq_some hfind, by simpa using List.find?_some hfind, hbase, hlength⟩

theorem le_totalSize_of_resolve {l : Layout} {n : SectionName} {base length : Nat} (hcheck : l.check = .ok ())
    (h : l.resolve n = some (base, length)) : base + length ≤ l.totalSize := by
  obtain ⟨x, hx, -, rfl, rfl⟩ := exists_section_of_resolve h
  exact ((layoutValidExactly l).mp hcheck).1 x hx

/-- Everything that `toConfig` answers. -/
theorem toConfig_eq_some {l : Layout} {o : OpcodeMap} {h : Bool} {c : Config} :
    l.toConfig o h = some c ↔
      l.check = .ok () ∧ ∃ base length, l.resolve .code = some (base, length) ∧
        c = { memSize := l.totalSize, codeBase := base, haltAdvancesPc := h, opc := o } ∧ c.wf = true := by
  unfold Layout.toConfig
  rcases hcheck : l.check with e | ⟨⟩
  · simp
  · rcases hresolve : l.resolve .code with _ | ⟨base, length⟩
    · simp
    · simp only [Option.ite_none_right_eq_some, Option.some.injEq, Prod.mk.injEq, true_and]
      constructor
      · rintro ⟨hwf, rfl⟩
        exact ⟨base, length, ⟨rfl, rfl⟩, rfl, hwf⟩
      · rintro ⟨_, _, ⟨rfl, rfl⟩, rfl, hwf⟩
        exact ⟨hwf, rfl⟩

/-- Settles O44. -/
theorem layoutGivesTwoNumbers : Obligations.LayoutGivesTwoNumbers := by
  intro l o h ho
  refine ⟨fun c hc => ?_, fun base length hcheck hresolve hsize => ⟨fun hlength => ?_, fun hbase => ?_, ?_⟩⟩
  · obtain ⟨-, base, length, hresolve, rfl, hwf⟩ := toConfig_eq_some.mp hc
    exact ⟨hwf, rfl, rfl, rfl, length, hresolve⟩
  · have := le_totalSize_of_resolve hcheck hresolve
    omega
  · exact ⟨_, toConfig_eq_some.mpr ⟨hcheck, base, length, hresolve, rfl,
      Config.wf_iff.mpr ⟨Nat.one_le_of_lt hbase, hsize, hbase, ho⟩⟩, rfl⟩
  · rintro ⟨c, hc, rfl⟩
    obtain ⟨-, _, _, -, rfl, hwf⟩ := toConfig_eq_some.mp hc
    exact (Config.wf_iff.mp hwf).2.2.1

/-! The start of a run (R280 to R286). -/

/-- The host starts a run on parameters within R8 and an image of `MEM_SIZE` Words, and on nothing else (R282, R286). -/
theorem boot_eq_some_iff {cfg : Config} {image : List Word} {s : State} :
    boot cfg image = some s ↔ (cfg.wf = true ∧ image.length = cfg.memSize) ∧ s = State.resetTo cfg image := by
  simp only [boot, Option.ite_none_right_eq_some, Bool.and_eq_true, beq_iff_eq, Option.some.injEq]
  exact and_congr_right fun _ => eq_comm

/-- Reset meets the invariant: the image lies within memory, and the PC is at `CODE_BASE`. -/
theorem State.resetTo_inv {cfg : Config} {image : List Word} (hwf : cfg.wf = true) (hlen : image.length = cfg.memSize) :
    (State.resetTo cfg image).Inv where
  cfg_wf := hwf
  mem_wf := Memory.wf_ofWords 0 image
  mem_below := by
    have hbelow := Memory.below_ofWords 0 image
    rwa [Nat.zero_add, hlen] at hbelow
  pc_le := by
    obtain ⟨-, hsize, hbase, -⟩ := Config.wf_iff.mp hwf
    exact (hbase.trans_le hsize).le
  fault_halted := fun hf => by cases hf

/-- With no fault there is nothing to describe. -/
theorem State.faultPrecise_of_none {s : State} (h : s.fault = none) : s.FaultPrecise := fun f hf => by simp [h] at hf

/-- Settles O41. -/
theorem startMeetsInvariantOrIsRefused : Obligations.StartMeetsInvariantOrIsRefused := by
  refine ⟨fun cfg image hbad => ?_, fun cfg image s h => ?_⟩
  · refine Option.eq_none_iff_forall_ne_some.mpr fun s h => ?_
    obtain ⟨⟨hwf, hlen⟩, -⟩ := boot_eq_some_iff.mp h
    rcases hbad with hbad | hbad
    · simp [hwf] at hbad
    · exact hbad hlen
  · obtain ⟨⟨hwf, hlen⟩, rfl⟩ := boot_eq_some_iff.mp h
    exact ⟨State.resetTo_inv hwf hlen, State.faultPrecise_of_none rfl⟩

/-- An image of zeros lists nothing. -/
theorem Memory.ofWords_replicate_zero (a n : Nat) : Memory.ofWords a (List.replicate n 0) = [] := by
  induction n generalizing a with
  | zero => rfl
  | succ n ih =>
    rw [List.replicate_succ, Memory.ofWords, ih]
    rfl

theorem State.resetTo_default : State.resetTo Config.default (List.replicate 2048 0) = State.reset := by
  rw [State.resetTo, Memory.ofWords_replicate_zero]
  rfl

theorem Config.default_wf : Config.default.wf = true := by decide

/-- Settles O42. -/
theorem resetStateIsTheDefaultStart : Obligations.ResetStateIsTheDefaultStart :=
  ⟨State.resetTo_default ▸ boot_eq_some Config.default_wf List.length_replicate, fun _ _ => boot_eq_some⟩

/-- Settles O24. -/
theorem resetMeetsInvariant : Obligations.ResetMeetsInvariant :=
  ⟨State.resetTo_default ▸ State.resetTo_inv Config.default_wf List.length_replicate, State.faultPrecise_of_none rfl⟩

/-- What a run on a layout starts from (R255). -/
theorem start_eq_some {l : Layout} {o : OpcodeMap} {h : Bool} {image : List Word} {s : State} :
    start l o h image = some s ↔
      ∃ cfg, l.toConfig o h = some cfg ∧ (cfg.wf = true ∧ image.length = cfg.memSize) ∧ s = State.resetTo cfg image := by
  simp only [start, Option.bind_eq_some_iff, boot_eq_some_iff]

/-- Settles O46: a session is a start with no last instruction. -/
theorem sessionStartsAtReset : Obligations.SessionStartsAtReset := by
  intro l o h image
  refine ⟨fun d hd => ?_, fun s hs => ⟨⟨s, none⟩, by simp [Session.start, hs], rfl⟩, fun hlen => ?_⟩
  · obtain ⟨s, hs, rfl⟩ := Option.map_eq_some_iff.mp hd
    obtain ⟨cfg, hcfg, ⟨hwf, hlen⟩, rfl⟩ := start_eq_some.mp hs
    have hinv := State.resetTo_inv hwf hlen
    obtain ⟨-, base, length, hresolve, rfl, -⟩ := toConfig_eq_some.mp hcfg
    exact ⟨hs, rfl, State.resetTo_reg _ image, ⟨length, hresolve⟩, rfl, rfl, rfl,
      fun a ha => Memory.read_ofWords_of_lt (hlen ▸ ha), hinv⟩
  · refine Option.map_eq_none_iff.mpr (Option.eq_none_iff_forall_ne_some.mpr fun s hs => ?_)
    obtain ⟨cfg, hcfg, ⟨-, hlen'⟩, -⟩ := start_eq_some.mp hs
    obtain ⟨-, base, length, -, rfl, -⟩ := toConfig_eq_some.mp hcfg
    exact hlen hlen'

end Sys2Proof.Machine
end

section
/-!
SUPPORT. The memory interface (spec/20_memory.md section 7), and images as bytes (section 4).
-/
namespace Sys2Proof.Machine
open Sys2Proof.Claims

/-! The accesses of a step (R73). -/

section
variable {s : State} {i : Instr} {a : Nat}

theorem dataAccesses_of_none (h : dataAddress s i = none) : dataAccesses s i = [] := by simp [dataAccesses, h]

theorem dataAccesses_of_le (h : dataAddress s i = some a) (hle : s.cfg.memSize ≤ a) : dataAccesses s i = [] := by
  simp [dataAccesses, h, Nat.not_lt.mpr hle]

theorem dataAccesses_of_load (h : dataAddress s i = some a) (hlt : a < s.cfg.memSize) (hi : storesData i = false) :
    dataAccesses s i = [.read (BitVec.ofNat 11 a)] := by
  simp [dataAccesses, h, hlt, hi]

end

theorem dataAccesses_of_str {s : State} {addr : Addr} (hlt : addr.toNat < s.cfg.memSize) :
    dataAccesses s (.str addr) = [.write addr (s.reg 7)] := by
  simp [dataAccesses, dataAddress, storesData, fieldAddress, hlt, mbr]

/-- `STR` is the only store (R57). -/
theorem eq_str_of_storesData {i : Instr} (h : storesData i = true) : ∃ addr, i = .str addr := by
  cases i with
  | str addr => exact ⟨addr, rfl⟩
  | _ => simp [storesData] at h

/-- The data accesses of an instruction: none, one read in range, or the write of a `STR` in range. -/
theorem dataAccesses_cases (s : State) (i : Instr) :
    dataAccesses s i = [] ∨
    (∃ a, a < s.cfg.memSize ∧ dataAccesses s i = [.read (BitVec.ofNat 11 a)]) ∨
    ∃ addr, addr.toNat < s.cfg.memSize ∧ i = .str addr ∧ dataAccesses s i = [.write addr (s.reg 7)] := by
  rcases hdata : dataAddress s i with _ | a
  · exact .inl (dataAccesses_of_none hdata)
  · rcases Nat.lt_or_ge a s.cfg.memSize with hlt | hle
    · rcases hstore : storesData i with _ | _
      · exact .inr (.inl ⟨a, hlt, dataAccesses_of_load hdata hlt hstore⟩)
      · obtain ⟨addr, rfl⟩ := eq_str_of_storesData hstore
        cases hdata
        exact .inr (.inr ⟨addr, hlt, rfl, dataAccesses_of_str hlt⟩)
    · exact .inl (dataAccesses_of_le hdata hle)

theorem stepAccesses_of_le {s : State} (hpc : s.cfg.memSize ≤ s.pc) : stepAccesses s = [] := by
  simp [stepAccesses, Nat.not_lt.mpr hpc]

theorem stepAccesses_of_lt {s : State} (hrun : s.halted = false) (hpc : s.pc < s.cfg.memSize) :
    stepAccesses s = .read (BitVec.ofNat 11 s.pc) :: dataAccesses s (decode s.cfg.opc (s.mem.read s.pc)) := by
  simp [stepAccesses, hrun, hpc]

/-- An address below `MEM_SIZE` fits the 11 bits of the interface. -/
theorem State.Inv.toNat_ofNat {s : State} (h : s.Inv) {a : Nat} (ha : a < s.cfg.memSize) : (BitVec.ofNat 11 a).toNat = a := by
  have hsize : s.cfg.memSize ≤ 2048 := h.memSize_le
  rw [BitVec.toNat_ofNat]
  omega

theorem length_stepAccesses_le {s : State} (hrun : s.halted = false) : (stepAccesses s).length ≤ 2 := by
  rcases Nat.lt_or_ge s.pc s.cfg.memSize with hpc | hpc
  · rw [stepAccesses_of_lt hrun hpc]
    obtain h | ⟨a, -, h⟩ | ⟨addr, -, -, h⟩ := dataAccesses_cases s (decode s.cfg.opc (s.mem.read s.pc)) <;> simp [h]
  · simp [stepAccesses_of_le hpc]

theorem State.Inv.lt_of_read_mem {s : State} (h : s.Inv) (hrun : s.halted = false) {a : Addr} (ha : .read a ∈ stepAccesses s) :
    a.toNat < s.cfg.memSize := by
  rcases Nat.lt_or_ge s.pc s.cfg.memSize with hpc | hpc
  · rw [stepAccesses_of_lt hrun hpc, List.mem_cons] at ha
    rcases ha with ha | ha
    · cases ha
      rwa [h.toNat_ofNat hpc]
    · obtain hd | ⟨b, hb, hd⟩ | ⟨addr, -, -, hd⟩ := dataAccesses_cases s (decode s.cfg.opc (s.mem.read s.pc))
      all_goals simp [hd] at ha
      subst ha
      rwa [h.toNat_ofNat hb]
  · simp [stepAccesses_of_le hpc] at ha

/-- The writes that a step issues are those of a `STR` in range. -/
theorem write_mem_stepAccesses {s : State} (hrun : s.halted = false) {a : Addr} {v : Word} :
    .write a v ∈ stepAccesses s ↔
      s.pc < s.cfg.memSize ∧ decode s.cfg.opc (s.mem.read s.pc) = .str a ∧ a.toNat < s.cfg.memSize ∧ v = s.reg 7 := by
  constructor
  · intro ha
    rcases Nat.lt_or_ge s.pc s.cfg.memSize with hpc | hpc
    · rw [stepAccesses_of_lt hrun hpc] at ha
      obtain hd | ⟨b, hb, hd⟩ | ⟨addr, haddr, hi, hd⟩ := dataAccesses_cases s (decode s.cfg.opc (s.mem.read s.pc))
      all_goals simp [hd] at ha
      obtain ⟨rfl, rfl⟩ := ha
      exact ⟨hpc, hi, haddr, rfl⟩
    · simp [stepAccesses_of_le hpc] at ha
  · rintro ⟨hpc, hi, haddr, rfl⟩
    simp [stepAccesses_of_lt hrun hpc, hi, dataAccesses_of_str haddr]

/-- The accesses after the fetch, by instruction. -/
theorem State.Inv.dataAccesses_spec {s : State} (h : s.Inv) (i : Instr) :
    (∀ d s1, i = .ldr d s1 →
      ((s.reg s1).toNat < s.cfg.memSize → ∃ a, dataAccesses s i = [.read a] ∧ a.toNat = (s.reg s1).toNat) ∧
      (s.cfg.memSize ≤ (s.reg s1).toNat → dataAccesses s i = [])) ∧
    (∀ addr, i = .load addr →
      (addr.toNat < s.cfg.memSize → dataAccesses s i = [.read addr]) ∧ (s.cfg.memSize ≤ addr.toNat → dataAccesses s i = [])) ∧
    (∀ addr, i = .str addr →
      (addr.toNat < s.cfg.memSize → dataAccesses s i = [.write addr (s.reg 7)]) ∧
      (s.cfg.memSize ≤ addr.toNat → dataAccesses s i = [])) ∧
    (accessAddress s i = none → dataAccesses s i = []) := by
  refine ⟨?_, ?_, ?_, fun hnone => dataAccesses_of_none (accessAddress_eq_dataAddress s i ▸ hnone)⟩
  · rintro d s1 rfl
    exact ⟨fun hlt => ⟨_, dataAccesses_of_load rfl hlt rfl, h.toNat_ofNat hlt⟩, dataAccesses_of_le rfl⟩
  · rintro addr rfl
    refine ⟨fun hlt => ?_, dataAccesses_of_le rfl⟩
    rw [dataAccesses_of_load rfl hlt rfl]
    simp
  · rintro addr rfl
    exact ⟨dataAccesses_of_str, dataAccesses_of_le rfl⟩

/-- A Word that no write of the step is for reads as before. -/
theorem step_mem_eq_of_no_write {s t : State} (hmem : s.mem.wf = true) (hstep : step s = .next t) {b : Nat}
    (hb : ∀ a v, .write a v ∈ stepAccesses s → a.toNat ≠ b) : t.mem.read b = s.mem.read b := by
  by_contra hne
  obtain ⟨hrun, ⟨-, rfl⟩ | ⟨hpc, -⟩⟩ := step_next hstep
  · exact hne rfl
  · obtain ⟨addr, hi, haddr, hlt, -⟩ := memoryWrittenByStrOnly s t hmem hstep b hne
    subst haddr
    exact hb addr _ ((write_mem_stepAccesses hrun).mpr ⟨hpc, hi, hlt, rfl⟩) rfl

/-- Settles O39. -/
theorem busAccessesAreTheSteps : Obligations.BusAccessesAreTheSteps := by
  intro s t hinv hstep
  obtain ⟨hrun, -⟩ := step_next hstep
  refine ⟨stepAccesses_of_le, fun hpc => ⟨_, _, stepAccesses_of_lt hrun hpc, hinv.toNat_ofNat hpc, hinv.dataAccesses_spec _⟩,
    length_stepAccesses_le hrun, fun a => hinv.lt_of_read_mem hrun, fun a v hw => ?_,
    fun b => step_mem_eq_of_no_write hinv.mem_wf hstep⟩
  obtain ⟨hpc, hi, ha, rfl⟩ := (write_mem_stepAccesses hrun).mp hw
  rw [step_of_lt hrun hpc, hi, exec_str_of_lt ha] at hstep
  cases hstep
  exact ⟨ha, Memory.read_write_same hinv.mem_wf _ _⟩

/-! Images as bytes (R63). -/

theorem wordOfBytes_split (w : Word) : w.extractLsb' 8 8 ++ w.extractLsb' 0 8 = w := by
  apply BitVec.eq_of_getLsbD_eq
  intro i hi
  simp only [BitVec.getLsbD_append, BitVec.getLsbD_extractLsb']
  grind

/-- Settles O49: in either order, the two bytes of a Word are its halves. -/
theorem imageBytesRoundTrip : Obligations.ImageBytesRoundTrip := by
  intro o image
  induction image with
  | nil => rfl
  | cons w rest ih =>
    cases o with
    | big => simp only [bytesOfImage, imageOfBytes, ih, Option.map_some, wordOfBytes, wordOfBytes_split]
    | little => simp only [bytesOfImage, imageOfBytes, ih, Option.map_some, wordOfBytes, wordOfBytes_split]

end Sys2Proof.Machine
end

section
/-!
SUPPORT. The assembler (spec/30_encoding.md section 6): pass 1 places every Word of the program once, inside its section's range, and
pass 2 writes each at its address.
-/
namespace Sys2Proof.Machine
open Sys2Proof.Claims

/-! The range of a section. -/

/-- The addresses that pass 1 may write for a section: from its base up to the limit of R121. -/
def InRange (l : Layout) (sec : DirectiveSection) (a : Nat) : Prop :=
  (sectionCursor l sec.name).next ≤ a ∧ a < (sectionCursor l sec.name).limit

theorem sectionCursor_of_resolve {l : Layout} {n : SectionName} {base length : Nat} (h : l.resolve n = some (base, length)) :
    sectionCursor l n = { next := base, limit := sectionLimit l n base length } := by
  simp [sectionCursor, h]

/-- An address that a section may write is in a section of the layout, and below every later base of another one. -/
theorem InRange.spec {l : Layout} {sec : DirectiveSection} {a : Nat} (h : InRange l sec a) :
    ∃ base length, l.resolve sec.name = some (base, length) ∧ base ≤ a ∧ a < base + length ∧
      ∀ y ∈ l.sections.eraseP (fun y => y.name == sec.name), base ≤ y.base → a < y.base := by
  obtain ⟨hle, hlt⟩ := h
  rcases hresolve : l.resolve sec.name with _ | ⟨base, length⟩
  · simp [sectionCursor, hresolve] at hlt
  · rw [sectionCursor_of_resolve hresolve] at hle hlt
    obtain ⟨-, hend, hothers, -⟩ := sectionLimit_spec l sec.name base length
    exact ⟨base, length, rfl, hle, hlt.trans_le hend, fun y hy hbase => hlt.trans_le (hothers y hy hbase)⟩

theorem DirectiveSection.name_inj {sec sec' : DirectiveSection} (h : sec.name = sec'.name) : sec = sec' := by
  revert h
  cases sec <;> cases sec' <;> simp [DirectiveSection.name]

/-- Two sections never write the same address: the one with the lower base stops at the other's (R121). -/
theorem InRange.section_unique {l : Layout} {sec sec' : DirectiveSection} {a : Nat} (h : InRange l sec a) (h' : InRange l sec' a) :
    sec = sec' := by
  by_contra hne
  have below {sec sec' : DirectiveSection} (hne : sec ≠ sec') {base base' length' : Nat}
      (hresolve : l.resolve sec'.name = some (base', length'))
      (hothers : ∀ y ∈ l.sections.eraseP (fun y => y.name == sec.name), base ≤ y.base → a < y.base) (hle : base ≤ base') :
      a < base' := by
    obtain ⟨y, hy, hname, rfl, -⟩ := exists_section_of_resolve hresolve
    have hother : ¬(y.name == sec.name) = true := by
      simpa [hname] using fun hn => hne (DirectiveSection.name_inj hn).symm
    exact hothers y ((List.mem_eraseP_of_neg (p := fun y => y.name == sec.name) hother).mpr hy) hle
  obtain ⟨base, length, hresolve, hbase, -, hothers⟩ := h.spec
  obtain ⟨base', length', hresolve', hbase', -, hothers'⟩ := h'.spec
  rcases Nat.le_total base base' with hle | hle
  · exact absurd (below hne hresolve' hothers hle) (Nat.not_lt.mpr hbase')
  · exact absurd (below (Ne.symm hne) hresolve hothers' hle) (Nat.not_lt.mpr hbase)

/-! Pass 1: placing a Word. -/

section
variable {α : Type} {p q : PassOne α} {line : Nat}

theorem PassOne.cursor_bump (p : PassOne α) (sec sec' : DirectiveSection) :
    (p.bump sec).cursor sec' = if sec' = sec then { p.cursor sec with next := (p.cursor sec).next + 1 } else p.cursor sec' := by
  cases sec <;> cases sec' <;> rfl

/-- Everything that placing a Word can do when it succeeds (R119, R121). -/
theorem PassOne.place_eq_ok {item : Item α} (h : p.place line item = .ok q) :
    ∃ sec, p.active = some sec ∧ (p.cursor sec).next < (p.cursor sec).limit ∧
      q = { p.bump sec with placed := p.placed ++ [⟨line, (p.cursor sec).next, item⟩] } := by
  unfold PassOne.place at h
  split at h
  next => cases h
  next sec hactive =>
    simp only at h
    split at h
    next hlt => exact ⟨sec, hactive, hlt, (Except.ok.inj h).symm⟩
    next => cases h

theorem PassOne.placeData_cons_eq_ok {v : Int} {rest : List Int} (h : p.placeData line (v :: rest) = .ok q) :
    ∃ r, p.place line (.datum v) = .ok r ∧ r.placeData line rest = .ok q := by
  rw [PassOne.placeData] at h
  rcases hr : p.place line (.datum v) with e | r
  · simp [hr, Except.bind] at h
  · exact ⟨r, rfl, by simpa [hr, Except.bind] using h⟩

/-! Where pass 1 places the Words. -/

/-- The cursors stay in their sections' ranges, and what is placed lies there, below the cursor, at different addresses. -/
structure PassOne.InSections (l : Layout) (p : PassOne α) : Prop where
  limit_eq : ∀ sec, (p.cursor sec).limit = (sectionCursor l sec.name).limit
  base_le : ∀ sec, (sectionCursor l sec.name).next ≤ (p.cursor sec).next
  placed_inRange : ∀ x ∈ p.placed, ∃ sec, InRange l sec x.address ∧ x.address < (p.cursor sec).next
  distinct : p.placed.Pairwise fun x y => x.address ≠ y.address

theorem PassOne.inSections_start (l : Layout) : (PassOne.start l : PassOne α).InSections l where
  limit_eq sec := by cases sec <;> rfl
  base_le sec := by cases sec <;> exact le_rfl
  placed_inRange x hx := by cases hx
  distinct := .nil

/-- A Word goes to the cursor, which is in range, and which no Word is at: those of its own section are below it, and those of the
other in another range. -/
theorem PassOne.InSections.place {l : Layout} {item : Item α} (hp : p.InSections l) (h : p.place line item = .ok q) :
    q.InSections l := by
  obtain ⟨sec, -, hlt, rfl⟩ := PassOne.place_eq_ok h
  have hcursor : InRange l sec (p.cursor sec).next := ⟨hp.base_le sec, hp.limit_eq sec ▸ hlt⟩
  have hbump (sec' : DirectiveSection) : (p.cursor sec').next ≤ ((p.bump sec).cursor sec').next := by
    rw [PassOne.cursor_bump]
    split
    next heq => rw [heq]; exact Nat.le_succ _
    next => exact le_rfl
  constructor
  case limit_eq =>
    intro sec'
    change ((p.bump sec).cursor sec').limit = _
    rw [PassOne.cursor_bump]
    split
    next heq => rw [heq]; exact hp.limit_eq sec
    next => exact hp.limit_eq sec'
  case base_le => exact fun sec' => (hp.base_le sec').trans (hbump sec')
  case placed_inRange =>
    intro x hx
    rcases List.mem_append.mp hx with hx | hx
    · obtain ⟨sec', hrange, hnext⟩ := hp.placed_inRange x hx
      exact ⟨sec', hrange, hnext.trans_le (hbump sec')⟩
    · obtain rfl := List.mem_singleton.mp hx
      refine ⟨sec, hcursor, ?_⟩
      change _ < ((p.bump sec).cursor sec).next
      rw [PassOne.cursor_bump, if_pos rfl]
      exact Nat.lt_succ_self _
  case distinct =>
    refine List.pairwise_append.mpr ⟨hp.distinct, List.pairwise_singleton _ _, fun x hx y hy heq => ?_⟩
    obtain rfl := List.mem_singleton.mp hy
    obtain ⟨sec', hrange, hnext⟩ := hp.placed_inRange x hx
    simp only at heq
    rw [heq] at hrange hnext
    obtain rfl := hrange.section_unique hcursor
    exact lt_irrefl _ hnext

/-! Pass 1 on a program. -/

variable [DecidableEq α]

theorem PassOne.declare_eq_ok {a : α} (h : p.declare a = .ok q) : ∃ symbols, q = { p with symbols := symbols } := by
  unfold PassOne.declare at h
  split at h
  next => cases h
  next => cases h
  next => exact ⟨_, (Except.ok.inj h).symm⟩

theorem PassOne.directive_eq_ok {n : SectionName} (h : p.statement line (.directive n) = .ok q) :
    ∃ active, q = { p with active := active } := by
  simp only [PassOne.statement] at h
  split at h
  next => exact ⟨_, (Except.ok.inj h).symm⟩
  next => cases h

theorem PassOne.run_cons_eq_ok {x : Statement α} {rest : List (Statement α)} (h : p.run line (x :: rest) = .ok q) :
    ∃ r, p.statement line x = .ok r ∧ r.run (line + 1) rest = .ok q := by
  rw [PassOne.run] at h
  split at h
  next r hr => exact ⟨r, hr, h⟩
  next => cases h

/-- What placing a Word keeps, and what depends on neither the active section nor the symbols, pass 1 keeps. -/
theorem PassOne.run_keeps {P : PassOne α → Prop} (hactive : ∀ p active, P p → P { p with active := active })
    (hsymbols : ∀ p symbols, P p → P { p with symbols := symbols })
    (hplace : ∀ p q line item, P p → p.place line item = .ok q → P q)
    {program : List (Statement α)} (hp : P p) (h : p.run line program = .ok q) : P q := by
  have data {vs : List Int} {line : Nat} {p q : PassOne α} (hp : P p) (h : p.placeData line vs = .ok q) : P q := by
    induction vs generalizing p with
    | nil => cases h; exact hp
    | cons v rest ih =>
      obtain ⟨r, hr, hrest⟩ := PassOne.placeData_cons_eq_ok h
      exact ih (hplace _ _ _ _ hp hr) hrest
  induction program generalizing p line with
  | nil => cases h; exact hp
  | cons x rest ih =>
    obtain ⟨r, hr, hrest⟩ := PassOne.run_cons_eq_ok h
    refine ih ?_ hrest
    cases x with
    | directive n =>
      obtain ⟨active, rfl⟩ := PassOne.directive_eq_ok hr
      exact hactive p active hp
    | declare a =>
      obtain ⟨symbols, rfl⟩ := PassOne.declare_eq_ok hr
      exact hsymbols p symbols hp
    | instr m xs => exact hplace _ _ _ _ hp hr
    | data vs => exact data hp hr

theorem PassOne.inSections_of_run {l : Layout} {program : List (Statement α)} (h : (PassOne.start l).run 0 program = .ok q) :
    q.InSections l :=
  PassOne.run_keeps (P := fun p => p.InSections l)
    (fun _ _ hp => ⟨hp.limit_eq, hp.base_le, hp.placed_inRange, hp.distinct⟩)
    (fun _ _ hp => ⟨hp.limit_eq, hp.base_le, hp.placed_inRange, hp.distinct⟩)
    (fun _ _ _ _ hp h => hp.place h) (PassOne.inSections_start l) h

end

/-- Settles O48: what is placed is in a section's range, and the limit of the range is its end or another section's base. -/
theorem contentStaysInItsSection : Obligations.ContentStaysInItsSection := by
  refine ⟨fun l program q h x hx => ?_, fun l p sec base length line item hactive hresolve hlimit hbase hfull => ?_⟩
  · obtain ⟨sec, hrange, -⟩ := (PassOne.inSections_of_run h).placed_inRange x hx
    obtain ⟨base, length, hspec⟩ := hrange.spec
    exact ⟨sec.name, base, length, by cases sec <;> simp [DirectiveSection.name], hspec⟩
  · obtain ⟨-, hend, hothers, -⟩ := sectionLimit_spec l sec.name base length
    have hge : ¬(p.cursor sec).next < (p.cursor sec).limit := by
      rw [hlimit, sectionCursor_of_resolve hresolve]
      rcases hfull with hfull | ⟨y, hy, hfull⟩
      · exact Nat.not_lt.mpr (hend.trans hfull)
      · exact Nat.not_lt.mpr (hfull ▸ hothers y hy (hfull ▸ hbase))
    simp [PassOne.place, hactive, hge]

/-! What pass 1 places, in the program's order. -/

/-- A placed item with its statement's number. -/
def Placed.lineItem {α : Type} (x : Placed α) : Nat × Item α := (x.line, x.item)

section
variable {p q : PassOne Nat} {line : Nat}

theorem itemsFrom_cons (line : Nat) (x : Statement Nat) (rest : List (Statement Nat)) :
    itemsFrom line (x :: rest) = itemsFrom line [x] ++ itemsFrom (line + 1) rest := by
  cases x <;> simp [itemsFrom]

theorem PassOne.place_items {item : Item Nat} (h : p.place line item = .ok q) :
    q.placed.map Placed.lineItem = p.placed.map Placed.lineItem ++ [(line, item)] := by
  obtain ⟨sec, -, -, rfl⟩ := PassOne.place_eq_ok h
  simp [Placed.lineItem]

theorem PassOne.placeData_items {vs : List Int} (h : p.placeData line vs = .ok q) :
    q.placed.map Placed.lineItem = p.placed.map Placed.lineItem ++ vs.map fun v => (line, .datum v) := by
  induction vs generalizing p with
  | nil => cases h; simp
  | cons v rest ih =>
    obtain ⟨r, hr, hrest⟩ := PassOne.placeData_cons_eq_ok h
    rw [ih hrest, PassOne.place_items hr]
    simp

theorem PassOne.statement_items {x : Statement Nat} (h : p.statement line x = .ok q) :
    q.placed.map Placed.lineItem = p.placed.map Placed.lineItem ++ itemsFrom line [x] := by
  cases x with
  | directive n =>
    obtain ⟨active, rfl⟩ := PassOne.directive_eq_ok h
    simp [itemsFrom]
  | declare a =>
    obtain ⟨symbols, rfl⟩ := PassOne.declare_eq_ok h
    simp [itemsFrom]
  | instr m xs => exact PassOne.place_items h
  | data vs => simpa [itemsFrom] using PassOne.placeData_items h

theorem PassOne.run_items {program : List (Statement Nat)} (h : p.run line program = .ok q) :
    q.placed.map Placed.lineItem = p.placed.map Placed.lineItem ++ itemsFrom line program := by
  induction program generalizing p line with
  | nil => cases h; simp [itemsFrom]
  | cons x rest ih =>
    obtain ⟨r, hr, hrest⟩ := PassOne.run_cons_eq_ok h
    rw [ih hrest, PassOne.statement_items hr, itemsFrom_cons line x rest, List.append_assoc]

end

/-! Pass 2. -/

section
variable {α : Type} [DecidableEq α] {o : OpcodeMap} {symbols : List (α × Nat)} {placed : List (Placed α)}
  {image image' : List Word}

theorem passTwo_cons_eq_ok {x : Placed α} (h : passTwo o symbols (x :: placed) image = .ok image') :
    ∃ w, encodeItem o symbols x.item = .ok w ∧ passTwo o symbols placed (image.set x.address w) = .ok image' := by
  rw [passTwo] at h
  split at h
  next w hw => exact ⟨w, hw, h⟩
  next => cases h

theorem length_passTwo (h : passTwo o symbols placed image = .ok image') : image'.length = image.length := by
  induction placed generalizing image with
  | nil => cases h; rfl
  | cons x rest ih =>
    obtain ⟨w, -, hrest⟩ := passTwo_cons_eq_ok h
    rw [ih hrest, List.length_set]

/-- Pass 2 writes nothing where nothing is placed. -/
theorem getElem?_passTwo_of_not_placed (h : passTwo o symbols placed image = .ok image') {a : Nat}
    (ha : ∀ x ∈ placed, x.address ≠ a) : image'[a]? = image[a]? := by
  induction placed generalizing image with
  | nil => cases h; rfl
  | cons x rest ih =>
    obtain ⟨w, -, hrest⟩ := passTwo_cons_eq_ok h
    rw [ih hrest fun y hy => ha y (List.mem_cons_of_mem _ hy), List.getElem?_set_ne (ha x List.mem_cons_self)]

/-- Pass 2 leaves the Word of each item at the item's address, since no later item is there. -/
theorem getElem?_passTwo_of_placed (h : passTwo o symbols placed image = .ok image')
    (hdistinct : placed.Pairwise fun x y => x.address ≠ y.address) (hlt : ∀ x ∈ placed, x.address < image.length) :
    ∀ x ∈ placed, ∃ w, encodeItem o symbols x.item = .ok w ∧ image'[x.address]? = some w := by
  induction placed generalizing image with
  | nil => simp
  | cons x rest ih =>
    obtain ⟨w, hw, hrest⟩ := passTwo_cons_eq_ok h
    obtain ⟨hx, hdistinct⟩ := List.pairwise_cons.mp hdistinct
    obtain ⟨hxlt, hlt⟩ := List.forall_mem_cons.mp hlt
    refine List.forall_mem_cons.mpr ⟨⟨w, hw, ?_⟩, ih hrest hdistinct (by simpa using hlt)⟩
    rw [getElem?_passTwo_of_not_placed hrest fun y hy => (hx y hy).symm, List.getElem?_set_self hxlt]

theorem encodeItem_instr_eq_ok {m : Mnemonic} {xs : List (Operand α)} {w : Word}
    (h : encodeItem o symbols (.instr m xs) = .ok w) : ∃ i, assembleInstr symbols m xs = .ok i ∧ w = encode o i := by
  rw [encodeItem] at h
  rcases hi : assembleInstr symbols m xs with e | i
  · simp [hi, Except.map] at h
  · exact ⟨i, rfl, by simpa [hi, Except.map, eq_comm] using h⟩

/-- Everything that the assembler does when it succeeds (R119, R120). -/
theorem assemble_eq_ok {l : Layout} {program : List (Statement α)} (h : assemble l o program = .ok image) :
    l.check = .ok () ∧ ∃ q, (PassOne.start l).run 0 program = .ok q ∧
      passTwo o q.symbols q.placed (List.replicate l.totalSize 0) = .ok image := by
  unfold assemble at h
  split at h
  next => cases h
  next hcheck =>
    split at h
    next => cases h
    next q hq => exact ⟨hcheck, q, hq, h⟩

end

/-- Settles O47: pass 1 places the program's items at different addresses below the total size, so pass 2 leaves the Word of each
where it stands, and the zeros it starts from elsewhere. -/
theorem assembledInstructionsAreInTheImage : Obligations.AssembledInstructionsAreInTheImage := by
  intro l o program image h
  obtain ⟨hcheck, q, hq, htwo⟩ := assemble_eq_ok h
  have hsections := PassOne.inSections_of_run hq
  have hlt : ∀ x ∈ q.placed, x.address < (List.replicate l.totalSize (0 : Word)).length := fun x hx => by
    obtain ⟨sec, hrange, -⟩ := hsections.placed_inRange x hx
    obtain ⟨base, length, hresolve, -, hend, -⟩ := hrange.spec
    rw [List.length_replicate]
    exact hend.trans_le (le_totalSize_of_resolve hcheck hresolve)
  refine ⟨by rw [length_passTwo htwo, List.length_replicate], q, hq, PassOne.run_items hq, fun x hx => ?_, fun a ha hfree => ?_⟩
  · obtain ⟨w, hw, hword⟩ := getElem?_passTwo_of_placed htwo hsections.distinct hlt x hx
    refine ⟨fun m xs hitem => ?_, fun v hitem => ?_⟩
    · rw [hitem] at hw
      obtain ⟨i, hi, rfl⟩ := encodeItem_instr_eq_ok hw
      exact ⟨i, hi, hword⟩
    · rw [hitem] at hw
      cases hw
      exact hword
  · rw [getElem?_passTwo_of_not_placed htwo hfree, List.getElem?_replicate, if_pos ha]

end Sys2Proof.Machine
end
